-- ==== Sys2Proof/Word.lean ====
section
/-! DEFINITION. The machine's words (00_scope.md rules R7, R10, R21): a Word is 16 bits and wraps, a general
register is named by a 3-bit index, the I/O collaborator moves bytes. -/

namespace Sys2Proof

/-- R10, R14: "a 16-bit unsigned value; the atomic unit of memory, registers, and instructions". -/
abbrev Word := BitVec 16

/-- R63: the unit the I/O collaborator reads and writes, and the unit of an image file (R227). -/
abbrev Byte := BitVec 8

/-- R21, R80: a 3-bit register index used directly, R0 = 000 to R7 = 111. -/
abbrev RegIdx := BitVec 3

end Sys2Proof
end

