-- ==== Sys2Proof/Config.lean ====
section
/-! DEFINITION. The parameters a model takes as arguments (00_scope.md rule R8, 92_eei_decisions.md), the answers
the environment can give (20_memory.md rule R63, 60_exceptions.md rule R208), and the free values: the answers no
script in the state supplies. The parameters' default values stand in Machine/Params.lean. -/

namespace Sys2Proof

/-- D8, R177: what TRAP does with a vector outside the six. -/
inductive UnknownTrapPolicy where
  | abort
  | noOp
  deriving DecidableEq, Repr

/-- R8: the named parameters. A machine carries them in its state; no step changes them. -/
structure Config where
  /-- D9: the keyboard status cell's address. -/
  kbsrAddr : Word
  /-- D9: the keyboard data cell's address. -/
  kbdrAddr : Word
  /-- D8. -/
  unknownTrap : UnknownTrapPolicy
  /-- D11: whether the string reads of PUTS and PUTSP go through MemRead. -/
  putsReadsViaDevice : Bool
  /-- D13: the word that stands for end of input. -/
  eofValue : Word
  /-- D14: the bytes IN emits before it reads. -/
  inPrompt : List Byte
  /-- D14: the bytes HALT emits. -/
  haltNotice : List Byte
  /-- D17: the status reported after an abort. -/
  exitAbort : Int
  /-- D17: the status reported after a stop request. -/
  exitStop : Int
  deriving DecidableEq, Repr

/-- R63, D13: what `InRead` returns. -/
inductive InAnswer where
  | byte (b : Byte)
  | eof
  deriving DecidableEq, Repr, Inhabited

/-- R208, D24, U15: how the wait of a GETC or IN for its input ends. -/
inductive WaitEvent where
  /-- the collaborator answers -/
  | answered
  /-- the host's stop request is seen during the wait -/
  | stopRequested
  /-- neither ever happens -/
  | neverAnswered
  deriving DecidableEq, Repr

/-- U5, log entry 4: the answer of an `InPoll` that no script supplies, free. Applied to the count of free draws. -/
opaque Config.freePoll : Nat → Bool

/-- U6, log entry 4: the answer of an `InRead` that no script supplies, free. Applied to the count of free draws. -/
opaque Config.freeRead : Nat → InAnswer

/-- U5, U14, log entry 10: the answers of the `InPoll`s that a string loop makes past the script, free: these answers
and then one that finds no input, or `none`, input at every poll. Applied to the same count. -/
opaque Config.freePolls : Nat → Option (List Bool)

end Sys2Proof
end

