-- ==== Sys2Proof/Machine/Params.lean ====
section
/-! DEFINITION. The fixed parameters (00_scope.md rule R7), the trap vectors (30_encoding.md rule R85) and the
defaults of the named parameters (rule R8). -/

namespace Sys2Proof.Machine

/-- R7, R221: the first fetch address after reset. -/
def entryPc : Word := 0x3000#16

/-- R7: MEM_WORDS. -/
def memWords : Nat := 65536

/-- R85 (D7). -/
def vectGetc : BitVec 8 := 0x20#8
/-- R85 (D7). -/
def vectOut : BitVec 8 := 0x21#8
/-- R85 (D7). -/
def vectPuts : BitVec 8 := 0x22#8
/-- R85 (D7). -/
def vectIn : BitVec 8 := 0x23#8
/-- R85 (D7). -/
def vectPutsp : BitVec 8 := 0x24#8
/-- R85 (D7). -/
def vectHalt : BitVec 8 := 0x25#8

/-- R85: the six listed vectors. -/
def serviceVectors : List (BitVec 8) := [vectGetc, vectOut, vectPuts, vectIn, vectPutsp, vectHalt]

/-- D14: "Enter a character: ". -/
def defaultInPrompt : List Byte :=
  [0x45#8, 0x6E#8, 0x74#8, 0x65#8, 0x72#8, 0x20#8, 0x61#8, 0x20#8, 0x63#8, 0x68#8] ++
  [0x61#8, 0x72#8, 0x61#8, 0x63#8, 0x74#8, 0x65#8, 0x72#8, 0x3A#8, 0x20#8]

/-- D14: "HALT" followed by 0x0A. -/
def defaultHaltNotice : List Byte := [0x48#8, 0x41#8, 0x4C#8, 0x54#8, 0x0A#8]

/-- R8: the defaults. DESIGN CHOICE (log entry 2): the two exit statuses, for which R8 gives no number. -/
def defaultConfig : Config :=
  { kbsrAddr := 0xFE00#16
    kbdrAddr := 0xFE02#16
    unknownTrap := .abort
    putsReadsViaDevice := false
    eofValue := 0xFFFF#16
    inPrompt := defaultInPrompt
    haltNotice := defaultHaltNotice
    exitAbort := 134
    exitStop := -2 }

/-- R8 "KBSR_ADDR and KBDR_ADDR must differ, and neither may equal ENTRY_PC", and D17 "distinct from each other
and from 0". -/
abbrev legalConfig (c : Config) : Prop :=
  c.kbsrAddr ≠ c.kbdrAddr ∧ c.kbsrAddr ≠ entryPc ∧ c.kbdrAddr ≠ entryPc ∧
    c.exitAbort ≠ 0 ∧ c.exitStop ≠ 0 ∧ c.exitAbort ≠ c.exitStop

end Sys2Proof.Machine
end

