-- ==== Sys2Proof/Syntax.lean ====
section
/-! DEFINITION. The instructions: one constructor per row of spec/opcode_table.json, with the operand fields of
00_scope.md rule R13. The bits a format ignores (30_encoding.md rule R86) are no operand. -/

namespace Sys2Proof

inductive Instr where
  /-- R140 -/
  | br (nzp : BitVec 3) (off : BitVec 9)
  /-- R130 -/
  | addReg (dr sr1 sr2 : RegIdx)
  /-- R131 -/
  | addImm (dr sr1 : RegIdx) (imm : BitVec 5)
  /-- R151 -/
  | ld (dr : RegIdx) (off : BitVec 9)
  /-- R155 -/
  | st (sr : RegIdx) (off : BitVec 9)
  /-- R142 -/
  | jsr (off : BitVec 11)
  /-- R143 -/
  | jsrr (base : RegIdx)
  /-- R132 -/
  | andReg (dr sr1 sr2 : RegIdx)
  /-- R133 -/
  | andImm (dr sr1 : RegIdx) (imm : BitVec 5)
  /-- R153 -/
  | ldr (dr base : RegIdx) (off : BitVec 6)
  /-- R157 -/
  | str (sr base : RegIdx) (off : BitVec 6)
  /-- R87, opcode 0b1000 -/
  | rsv8
  /-- R134 -/
  | not (dr sr1 : RegIdx)
  /-- R152 -/
  | ldi (dr : RegIdx) (off : BitVec 9)
  /-- R156 -/
  | sti (sr : RegIdx) (off : BitVec 9)
  /-- R141; RET is `jmp 7` -/
  | jmp (base : RegIdx)
  /-- R87, opcode 0b1101 -/
  | rsv13
  /-- R154 -/
  | lea (dr : RegIdx) (off : BitVec 9)
  /-- R171 -/
  | trapGetc
  /-- R172 -/
  | trapOut
  /-- R173 -/
  | trapPuts
  /-- R174 -/
  | trapIn
  /-- R175 -/
  | trapPutsp
  /-- R176 -/
  | trapHalt
  /-- R177, a vector outside the six -/
  | trapOther (vect : BitVec 8)
  deriving DecidableEq, Repr

end Sys2Proof
end

