-- ==== Sys2Proof/WellFormed.lean ====
section
/-! DEFINITION. Which terms of `Instr` an instruction word can stand for. The operand fields carry their widths in
their types, so one check is left: a TRAP "with any other vector" (30_encoding.md rule R85) holds none of the six. -/

namespace Sys2Proof

def Instr.wf : Instr → Bool
  | .trapOther v => !(Machine.serviceVectors.contains v)
  | .br _ _ | .addReg _ _ _ | .addImm _ _ _ | .ld _ _ | .st _ _ | .jsr _ | .jsrr _
  | .andReg _ _ _ | .andImm _ _ _ | .ldr _ _ _ | .str _ _ _ | .rsv8 | .not _ _ | .ldi _ _ | .sti _ _
  | .jmp _ | .rsv13 | .lea _ _ | .trapGetc | .trapOut | .trapPuts | .trapIn | .trapPutsp | .trapHalt => true

end Sys2Proof
end

