-- ==== Sys2Proof/Decode.lean ====
section
/-! DEFINITION. The decoder (30_encoding.md, 40_fetch_decode.md rules R112 and R120) and, after it, the encoder,
both written from the formats of rule R80. Decoding is total: each of the 65536 words has a meaning (rule R90),
so no word is refused. -/

namespace Sys2Proof

/-! The fields of an instruction word (rules R13, R120). -/

def opOf (ir : Word) : BitVec 4 := ir.extractLsb' 12 4
def drOf (ir : Word) : RegIdx := ir.extractLsb' 9 3
def sr1Of (ir : Word) : RegIdx := ir.extractLsb' 6 3
def sr2Of (ir : Word) : RegIdx := ir.extractLsb' 0 3
def immFlagOf (ir : Word) : BitVec 1 := ir.extractLsb' 5 1
def longFlagOf (ir : Word) : BitVec 1 := ir.extractLsb' 11 1
def nzpOf (ir : Word) : BitVec 3 := ir.extractLsb' 9 3
def imm5Of (ir : Word) : BitVec 5 := ir.extractLsb' 0 5
def off6Of (ir : Word) : BitVec 6 := ir.extractLsb' 0 6
def off9Of (ir : Word) : BitVec 9 := ir.extractLsb' 0 9
def off11Of (ir : Word) : BitVec 11 := ir.extractLsb' 0 11
def trapvectOf (ir : Word) : BitVec 8 := ir.extractLsb' 0 8

/-- R85, R170: the routine an 8-bit trap vector selects. -/
def decodeTrap (v : BitVec 8) : Instr :=
  if v = Machine.vectGetc then .trapGetc
  else if v = Machine.vectOut then .trapOut
  else if v = Machine.vectPuts then .trapPuts
  else if v = Machine.vectIn then .trapIn
  else if v = Machine.vectPutsp then .trapPutsp
  else if v = Machine.vectHalt then .trapHalt
  else .trapOther v

/-- R84, R112: dispatch on the opcode `op`, all sixteen values; the last arm's value is 0b1111, the one left. -/
def decodeOp (op : BitVec 4) (ir : Word) : Instr :=
  match op with
  | 0x0#4 => .br (nzpOf ir) (off9Of ir)
  | 0x1#4 => if immFlagOf ir = 1#1 then .addImm (drOf ir) (sr1Of ir) (imm5Of ir)
             else .addReg (drOf ir) (sr1Of ir) (sr2Of ir)
  | 0x2#4 => .ld (drOf ir) (off9Of ir)
  | 0x3#4 => .st (drOf ir) (off9Of ir)
  | 0x4#4 => if longFlagOf ir = 1#1 then .jsr (off11Of ir) else .jsrr (sr1Of ir)
  | 0x5#4 => if immFlagOf ir = 1#1 then .andImm (drOf ir) (sr1Of ir) (imm5Of ir)
             else .andReg (drOf ir) (sr1Of ir) (sr2Of ir)
  | 0x6#4 => .ldr (drOf ir) (sr1Of ir) (off6Of ir)
  | 0x7#4 => .str (drOf ir) (sr1Of ir) (off6Of ir)
  | 0x8#4 => .rsv8
  | 0x9#4 => .not (drOf ir) (sr1Of ir)
  | 0xA#4 => .ldi (drOf ir) (off9Of ir)
  | 0xB#4 => .sti (drOf ir) (off9Of ir)
  | 0xC#4 => .jmp (sr1Of ir)
  | 0xD#4 => .rsv13
  | 0xE#4 => .lea (drOf ir) (off9Of ir)
  | _ => decodeTrap (trapvectOf ir)

/-- R90: the total decode function. -/
def decode (ir : Word) : Instr := decodeOp (opOf ir) ir

/-- The opcode an instruction is encoded under (R84). -/
def opcode : Instr → BitVec 4
  | .br _ _ => 0x0#4
  | .addReg _ _ _ => 0x1#4
  | .addImm _ _ _ => 0x1#4
  | .ld _ _ => 0x2#4
  | .st _ _ => 0x3#4
  | .jsr _ => 0x4#4
  | .jsrr _ => 0x4#4
  | .andReg _ _ _ => 0x5#4
  | .andImm _ _ _ => 0x5#4
  | .ldr _ _ _ => 0x6#4
  | .str _ _ _ => 0x7#4
  | .rsv8 => 0x8#4
  | .not _ _ => 0x9#4
  | .ldi _ _ => 0xA#4
  | .sti _ _ => 0xB#4
  | .jmp _ => 0xC#4
  | .rsv13 => 0xD#4
  | .lea _ _ => 0xE#4
  | .trapGetc | .trapOut | .trapPuts | .trapIn | .trapPutsp | .trapHalt | .trapOther _ => 0xF#4

/-- The twelve bits below the opcode (R80, R85). DESIGN CHOICE (log entry 9): an ignored bit is encoded as 0, but
NOT's ir[5:0] as 111111, the form R86 and R134 give for standard assemblers. -/
def operandBits : Instr → BitVec 12
  | .br nzp off => nzp ++ off
  | .addReg dr sr1 sr2 => dr ++ sr1 ++ 0b000#3 ++ sr2
  | .addImm dr sr1 imm => dr ++ sr1 ++ 1#1 ++ imm
  | .ld dr off => dr ++ off
  | .st sr off => sr ++ off
  | .jsr off => 1#1 ++ off
  | .jsrr base => 0b000#3 ++ base ++ 0b000000#6
  | .andReg dr sr1 sr2 => dr ++ sr1 ++ 0b000#3 ++ sr2
  | .andImm dr sr1 imm => dr ++ sr1 ++ 1#1 ++ imm
  | .ldr dr base off => dr ++ base ++ off
  | .str sr base off => sr ++ base ++ off
  | .rsv8 => 0x000#12
  | .not dr sr1 => dr ++ sr1 ++ 0b111111#6
  | .ldi dr off => dr ++ off
  | .sti sr off => sr ++ off
  | .jmp base => 0b000#3 ++ base ++ 0b000000#6
  | .rsv13 => 0x000#12
  | .lea dr off => dr ++ off
  | .trapGetc => 0x0#4 ++ Machine.vectGetc
  | .trapOut => 0x0#4 ++ Machine.vectOut
  | .trapPuts => 0x0#4 ++ Machine.vectPuts
  | .trapIn => 0x0#4 ++ Machine.vectIn
  | .trapPutsp => 0x0#4 ++ Machine.vectPutsp
  | .trapHalt => 0x0#4 ++ Machine.vectHalt
  | .trapOther vect => 0x0#4 ++ vect

/-- R80, R81: an instruction's one word. -/
def encode (i : Instr) : Word := opcode i ++ operandBits i

/-- The word an opcode-table row's bits stand for: one word, the bits above `nbits` zero. -/
def tableWord (nbits w : Nat) : Word := BitVec.ofNat 16 (w % 2 ^ nbits)

/-- The decoder on a word given as the opcode table numbers its bits. -/
def decodeTableWord (nbits w : Nat) : Option Instr := some (decode (tableWord nbits w))

end Sys2Proof
end

