-- ==== Sys2Proof/Machine/State.lean ====
section
/-! DEFINITION. The machine's state (10_state.md), the reasons a step can stop, and the state after reset (R35). -/

namespace Sys2Proof.Machine

/-- R26, R29: the condition code holds exactly one of N, Z and P. -/
inductive CC where
  | n
  | z
  | p
  deriving DecidableEq, Repr

/-- R200, R201: what a fault records. -/
inductive FaultRecord where
  /-- code 1, RESERVED_OPCODE -/
  | reservedOpcode (op : BitVec 4) (ir addr : Word)
  /-- code 2, UNKNOWN_TRAP -/
  | unknownTrap (vector : BitVec 8) (ir addr : Word)
  deriving DecidableEq, Repr

/-- R31: the run state. -/
inductive RunState where
  | running
  | halted
  | aborted (record : FaultRecord)
  | stopped
  deriving DecidableEq, Repr

/-- R20, R50: the 65536 cells, as the list of those that do not hold 0x0000 (log entry 8). -/
abbrev Memory := List (Nat × Word)

/-- The one canonical form: addresses strictly rising and inside the address space, no cell at the value an unlisted
cell reads as. -/
abbrev Memory.wf (m : Memory) : Prop :=
  m.Pairwise (fun c d => c.1 < d.1) ∧ ∀ c ∈ m, c.1 < memWords ∧ c.2 ≠ 0x0000#16

/-- The model's own: the environment's answers to come (R63, R208), each list's head the next answer, and the count
of the free values drawn where a list was empty (log entries 4 to 6). -/
structure Env where
  stops : List Bool
  polls : List Bool
  reads : List InAnswer
  waits : List WaitEvent
  draws : Nat
  deriving DecidableEq, Repr

/-- R20, R32: every piece of state the spec gives the machine, and the model's `cfg` and `env`. -/
structure State where
  /-- R21: R0 to R7. -/
  x : Vector Word 8
  /-- R25. -/
  pc : Word
  /-- R26. -/
  cc : CC
  /-- R50: `store`, the keyboard cells among them. -/
  mem : Memory
  /-- R31. -/
  run : RunState
  /-- R20, R63: the bytes emitted, oldest first. -/
  out : List Byte
  /-- R32: the fetch unit's instruction register, not architecturally visible. -/
  ir : Word
  /-- R8: the parameters (log entry 1). -/
  cfg : Config
  /-- R63, R208: the environment (log entry 4). -/
  env : Env
  deriving DecidableEq, Repr

/-- Why the machine stops with no next state. -/
inductive Fault where
  /-- Raised by `step` when the run state is ABORTED, also when the instruction of this step has just made it so
  (R200; D18 "A model treats ABORTED as a fault that refutes any claim, never as a final state"). It carries what
  stays observable (R209): the fault record and `out`. Safe: no state follows. -/
  | aborted (record : FaultRecord) (out : List Byte)
  /-- Raised by GETC and IN when neither input nor a stop request ever comes (D24, U15: stuck). Safe: the step never
  completes, on the hardware too. -/
  | blockedOnInput
  /-- Raised by PUTS and PUTSP when their loop meets no zero word, ever (R173 "the instruction never completes", U14: a
  hang inside one step). Safe: the step never completes, on the hardware too. -/
  | stringNeverEnds
  deriving DecidableEq, Repr

/-- Why the model gives no meaning. -/
inductive Refusal where
  /-- Raised by an arm of `exec` whose instruction has no meaning yet; no arm is left that does. Safe. -/
  | notModelled (mnemonic : String)
  deriving DecidableEq, Repr

/-- Log entries 4 to 6: no answer is scripted and none has been drawn. -/
def Env.reset : Env := { stops := [], polls := [], reads := [], waits := [], draws := 0 }

/-- R35, R220. `ir` has no value before the first fetch writes it (log entry 3); `cfg` holds the defaults of R8. -/
def State.reset : State :=
  { x := Vector.replicate 8 0x0000#16
    pc := entryPc
    cc := .z
    mem := []
    run := .running
    out := []
    ir := 0x0000#16
    cfg := defaultConfig
    env := Env.reset }

end Sys2Proof.Machine
end

