-- ==== Sys2Proof/Machine/Ops.lean ====
section
/-! DEFINITION. The named operations over registers, memory, the keyboard device, the I/O collaborator, the run state
and the fetch unit. Taking a fault, entering a TRAP and returning from one stand here, each once. -/

namespace Sys2Proof.Machine

/-! ## The register file (R21, R24) -/

/-- `get(reg)`: `x[r]`. -/
def State.reg (s : State) (r : RegIdx) : Word := s.x[r.toNat]'(r.isLt)

/-- `set(reg, value)`: `x[r] <- v`. No register is hardwired. -/
def State.setReg (r : RegIdx) (v : Word) (s : State) : State :=
  { s with x := s.x.set r.toNat v r.isLt }

/-! ## The program counter (R25) -/

def State.setPc (v : Word) (s : State) : State := { s with pc := v }

/-- R116: the address of the executing instruction, while `pc` has not been rewritten. -/
def State.instrAddr (s : State) : Word := s.pc - 1#16

/-! ## The memory array (R50, R66) -/

/-- An unlisted cell reads 0x0000, its reset value (R35). -/
def readCell (a : Nat) : Memory → Word
  | [] => 0x0000#16
  | c :: m => if c.1 = a then c.2 else readCell a m

def eraseCell (a : Nat) (m : Memory) : Memory := m.filter (fun c => c.1 ≠ a)

def insertCell (a : Nat) (v : Word) : Memory → Memory
  | [] => [(a, v)]
  | c :: m => if a < c.1 then (a, v) :: c :: m else c :: insertCell a v m

/-- Keeps the canonical form: a cell written with 0x0000 is not listed. -/
def writeCell (a : Nat) (v : Word) (m : Memory) : Memory :=
  if v = 0x0000#16 then eraseCell a m else insertCell a v (eraseCell a m)

/-- R54: `StoreRead(a)`, the cell itself, with no device side effect. -/
def storeRead (a : Word) (s : State) : Word := readCell a.toNat s.mem

/-- R53: `MemWrite(a, 1, v)`, an unconditional store; also the loader's direct store (R229). -/
def memWrite (a v : Word) (s : State) : State := { s with mem := writeCell a.toNat v s.mem }

/-! ## The environment's answers (R63, R208; log entries 4 to 6) -/

/-- R63: `InPoll()`. -/
def inPoll (s : State) : Bool × State :=
  match s.env.polls with
  | b :: rest => (b, { s with env := { s.env with polls := rest } })
  | [] => (Config.freePoll s.env.draws, { s with env := { s.env with draws := s.env.draws + 1 } })

/-- Log entry 10: the environment goes on, past the script, with these answers of `InPoll`. -/
def supplyPolls (ps : List Bool) (s : State) : State :=
  { s with env := { s.env with polls := s.env.polls ++ ps, draws := s.env.draws + 1 } }

/-- Log entry 10: the supplied answers that no poll has taken are free again. -/
def dropPolls (s : State) : State := { s with env := { s.env with polls := [] } }

/-- R63: `InRead()`, its answer. -/
def inRead (s : State) : InAnswer × State :=
  match s.env.reads with
  | c :: rest => (c, { s with env := { s.env with reads := rest } })
  | [] => (Config.freeRead s.env.draws, { s with env := { s.env with draws := s.env.draws + 1 } })

/-- R208: the sample of the stop request before a step. DESIGN CHOICE (log entry 5): past the script, not asserted. -/
def sampleStop (s : State) : Bool × State :=
  match s.env.stops with
  | b :: rest => (b, { s with env := { s.env with stops := rest } })
  | [] => (false, s)

/-- R208, D24: how the wait of a blocking read ends. DESIGN CHOICE (log entry 6): past the script, with an answer. -/
def inWait (s : State) : WaitEvent × State :=
  match s.env.waits with
  | e :: rest => (e, { s with env := { s.env with waits := rest } })
  | [] => (.answered, s)

/-- R63, D13: `InRead16`, a byte zero-extended or EOF_VALUE. -/
def inputWord (c : Config) : InAnswer → Word
  | .byte b => b.setWidth 16
  | .eof => c.eofValue

/-- R174: the byte IN echoes. -/
def echoByte (c : Config) : InAnswer → Byte
  | .byte b => b
  | .eof => c.eofValue.extractLsb' 0 8

/-! ## Output (R63) -/

/-- `OutByte`, for a sequence of bytes in order. -/
def outBytes (bs : List Byte) (s : State) : State := { s with out := s.out ++ bs }

/-- D15: `OutFlush()` has no architectural effect. -/
def outFlush (s : State) : State := s

/-! ## The keyboard device and the memory interface (R52, R56, R64) -/

/-- R52: the poll a read of the status cell makes. -/
def pollKeyboard (s : State) : State :=
  let p := inPoll s
  if p.1 then
    let s1 := memWrite s.cfg.kbsrAddr 0x8000#16 p.2
    let c := inRead s1
    memWrite s.cfg.kbdrAddr (inputWord s.cfg c.1) c.2
  else
    memWrite s.cfg.kbsrAddr 0x0000#16 p.2

/-- R52: `MemRead(a, 1)`. -/
def memRead (a : Word) (s : State) : Word × State :=
  if a = s.cfg.kbsrAddr then (storeRead a (pollKeyboard s), pollKeyboard s) else (storeRead a s, s)

/-- R64: the read transactions. -/
inductive ReadKind where
  | fetch
  | read
  | readRaw
  deriving DecidableEq, Repr

/-- R64: FETCH and READ are `MemRead`, READ_RAW is `StoreRead`. -/
def busRead (k : ReadKind) (a : Word) (s : State) : Word × State :=
  match k with
  | .fetch => memRead a s
  | .read => memRead a s
  | .readRaw => (storeRead a s, s)

/-- R64: WRITE. -/
def busWrite (a v : Word) (s : State) : State := memWrite a v s

/-! ## The run state (R31, R200, R208) -/

/-- R31: `halt`. -/
def halt (s : State) : State := { s with run := .halted }

/-- R208: the stop request is taken. -/
def stopRun (s : State) : State := { s with run := .stopped }

/-- R200: `raise Fault(kind, info)`, the one way a fault is taken: the run state changes and nothing else. -/
def raiseFault (r : FaultRecord) (s : State) : State := { s with run := .aborted r }

/-- R201: the fault kind's code. -/
def FaultRecord.code : FaultRecord → Nat
  | .reservedOpcode _ _ _ => 1
  | .unknownTrap _ _ _ => 2

/-! ## TRAP entry and return (R170, R204, R206) -/

/-- R142, R143, R170: the return address A + 1 goes to R7; `cc` is not updated (R28). -/
def saveReturn (s : State) : State := s.setReg 7#3 s.pc

/-- R141, R206: the only return from a TRAP or a call, a jump to the register's value; nothing else is restored. -/
def jumpToReg (r : RegIdx) (s : State) : State := s.setPc (s.reg r)

/-! ## The fetch unit (R110, R111) -/

/-- R111: the word at `pc` goes to `ir`, then `pc` is incremented modulo 65536. -/
def fetch (s : State) : State :=
  let r := busRead .fetch s.pc s
  { r.2 with ir := r.1, pc := s.pc + 1#16 }

end Sys2Proof.Machine
end

