-- ==== Sys2Proof/Machine/Operands.lean ====
section
/-! DEFINITION. The operand forms: sign and zero extension (00_scope.md rule R11), the ALU (41_operate.md rule R135)
and the effective addresses (43_load_store.md rule R150). -/

namespace Sys2Proof.Machine

/-- R11: `sext_N`. -/
def sext {n : Nat} (f : BitVec n) : Word := f.signExtend 16

/-- R11: `zext_16`. -/
def zext16 (b : Byte) : Word := b.setWidth 16

/-- R135: the ALU's functions. -/
inductive AluFn where
  | add
  | and
  | not
  | pass
  deriving DecidableEq, Repr

/-- R135; the sum wraps modulo 65536 (R10). -/
def alu : AluFn → Word → Word → Word
  | .add, a, b => a + b
  | .and, a, b => a &&& b
  | .not, a, _ => ~~~a
  | .pass, a, _ => a

/-- R115, R150: `pc + sext_9(off)`, `pc` being A + 1. -/
def pcRel9 (off : BitVec 9) (s : State) : Word := alu .add s.pc (sext off)

/-- R142: `pc + sext_11(off)`. -/
def pcRel11 (off : BitVec 11) (s : State) : Word := alu .add s.pc (sext off)

/-- R150: `x[BaseR] + sext_6(off)`. -/
def baseOff6 (base : RegIdx) (off : BitVec 6) (s : State) : Word := alu .add (s.reg base) (sext off)

end Sys2Proof.Machine
end

