-- ==== Sys2Proof/Machine/Flags.lean ====
section
/-! DEFINITION. The condition code: its one-hot bits, `setcc`, the BR test and the write of a destination register
with its update (10_state.md rules R26 to R29). -/

namespace Sys2Proof.Machine

/-- R26 (D4): N is bit 2, Z bit 1, P bit 0. -/
def ccBits : CC → BitVec 3
  | .n => 0b100#3
  | .z => 0b010#3
  | .p => 0b001#3

/-- R27: the flag of a 16-bit result. -/
def ccOf (v : Word) : CC := if v = 0x0000#16 then .z else if v.msb then .n else .p

/-- R27: `setcc(v)`. -/
def setcc (v : Word) (s : State) : State := { s with cc := ccOf v }

/-- R27: a register-defining instruction's write, `x[dr] <- v` and then `setcc(v)`. -/
def writeDest (dr : RegIdx) (v : Word) (s : State) : State := setcc v (s.setReg dr v)

/-- R140: `(ir[11:9] & cc) != 0b000`. -/
def brTaken (nzp : BitVec 3) (s : State) : Bool := nzp &&& ccBits s.cc != 0b000#3

end Sys2Proof.Machine
end

