-- ==== Sys2Proof/Machine/Control.lean ====
section
/-! DEFINITION. The control transfers (42_control.md) and the two reserved opcodes (30_encoding.md rule R87). -/

namespace Sys2Proof.Machine

/-- R140 -/
def execBr (nzp : BitVec 3) (off : BitVec 9) (s : State) : Host.Outcome State Fault Refusal :=
  .next (if brTaken nzp s then s.setPc (pcRel9 off s) else s)

/-- R141 -/
def execJmp (base : RegIdx) (s : State) : Host.Outcome State Fault Refusal :=
  .next (jumpToReg base s)

/-- R142 -/
def execJsr (off : BitVec 11) (s : State) : Host.Outcome State Fault Refusal :=
  .next ((saveReturn s).setPc (pcRel11 off (saveReturn s)))

/-- R143: the base register is read after R7 is written (90_conflicts.md C9). -/
def execJsrr (base : RegIdx) (s : State) : Host.Outcome State Fault Refusal :=
  .next (jumpToReg base (saveReturn s))

/-- R87, R201: opcode 0b1000. -/
def execRsv8 (s : State) : Host.Outcome State Fault Refusal :=
  .next (raiseFault (.reservedOpcode 0b1000#4 s.ir s.instrAddr) s)

/-- R87, R201: opcode 0b1101. -/
def execRsv13 (s : State) : Host.Outcome State Fault Refusal :=
  .next (raiseFault (.reservedOpcode 0b1101#4 s.ir s.instrAddr) s)

end Sys2Proof.Machine
end

