-- ==== Sys2Proof/Machine/LoadStore.lean ====
section
/-! DEFINITION. The load/store unit (43_load_store.md). Each transaction goes through the memory interface, in the
order the rule writes it. -/

namespace Sys2Proof.Machine

/-- R135, R151 to R153: a loaded word passes the ALU on its way to the destination and `setcc`. -/
def loadInto (dr : RegIdx) (r : Word × State) : State := writeDest dr (alu .pass r.1 r.1) r.2

/-- R151 -/
def execLd (dr : RegIdx) (off : BitVec 9) (s : State) : Host.Outcome State Fault Refusal :=
  .next (loadInto dr (busRead .read (pcRel9 off s) s))

/-- R152: the pointer read, then the data read. -/
def execLdi (dr : RegIdx) (off : BitVec 9) (s : State) : Host.Outcome State Fault Refusal :=
  let p := busRead .read (pcRel9 off s) s
  .next (loadInto dr (busRead .read p.1 p.2))

/-- R153 -/
def execLdr (dr base : RegIdx) (off : BitVec 6) (s : State) : Host.Outcome State Fault Refusal :=
  .next (loadInto dr (busRead .read (baseOff6 base off s) s))

/-- R154: no memory access; `cc` is set (90_conflicts.md C9). -/
def execLea (dr : RegIdx) (off : BitVec 9) (s : State) : Host.Outcome State Fault Refusal :=
  .next (writeDest dr (pcRel9 off s) s)

/-- R155 -/
def execSt (sr : RegIdx) (off : BitVec 9) (s : State) : Host.Outcome State Fault Refusal :=
  .next (busWrite (pcRel9 off s) (s.reg sr) s)

/-- R156: the pointer read, then the write. -/
def execSti (sr : RegIdx) (off : BitVec 9) (s : State) : Host.Outcome State Fault Refusal :=
  let p := busRead .read (pcRel9 off s) s
  .next (busWrite p.1 (p.2.reg sr) p.2)

/-- R157 -/
def execStr (sr base : RegIdx) (off : BitVec 6) (s : State) : Host.Outcome State Fault Refusal :=
  .next (busWrite (baseOff6 base off s) (s.reg sr) s)

end Sys2Proof.Machine
end

