-- ==== Sys2Proof/Machine/Operate.lean ====
section
/-! DEFINITION. The operate instructions (41_operate.md). -/

namespace Sys2Proof.Machine

/-- R130 -/
def execAddReg (dr sr1 sr2 : RegIdx) (s : State) : Host.Outcome State Fault Refusal :=
  .next (writeDest dr (alu .add (s.reg sr1) (s.reg sr2)) s)

/-- R131 -/
def execAddImm (dr sr1 : RegIdx) (imm : BitVec 5) (s : State) : Host.Outcome State Fault Refusal :=
  .next (writeDest dr (alu .add (s.reg sr1) (sext imm)) s)

/-- R132 -/
def execAndReg (dr sr1 sr2 : RegIdx) (s : State) : Host.Outcome State Fault Refusal :=
  .next (writeDest dr (alu .and (s.reg sr1) (s.reg sr2)) s)

/-- R133 -/
def execAndImm (dr sr1 : RegIdx) (imm : BitVec 5) (s : State) : Host.Outcome State Fault Refusal :=
  .next (writeDest dr (alu .and (s.reg sr1) (sext imm)) s)

/-- R134; the ALU's second operand is not used. -/
def execNot (dr sr1 : RegIdx) (s : State) : Host.Outcome State Fault Refusal :=
  .next (writeDest dr (alu .not (s.reg sr1) (s.reg sr1)) s)

end Sys2Proof.Machine
end

