-- ==== Sys2Proof/Machine/Trap.lean ====
section
/-! DEFINITION. TRAP and its service routines (44_trap.md). Every routine runs inside the TRAP's step, after the
return address is saved (R170, R178). -/

namespace Sys2Proof.Machine

/-- R171, R174, R208: a blocking read of one character and what follows it. A stop request seen during the wait ends
the run with nothing written (R208); a wait that never ends is stuck (U15). -/
def blockingRead (s : State) (k : InAnswer → State → State) : Host.Outcome State Fault Refusal :=
  let w := inWait s
  match w.1 with
  | .answered => .next (k (inRead w.2).1 (inRead w.2).2)
  | .stopRequested => .next (stopRun w.2)
  | .neverAnswered => .fault .blockedOnInput

/-- R54: a string read of PUTS or PUTSP. -/
def stringRead (a : Word) (s : State) : Word × State :=
  busRead (if s.cfg.putsReadsViaDevice then .read else .readRaw) a s

/-- R173, R175: the loop over a string's words, at most `fuel` reads; `chars` gives a word's bytes. -/
def emitString (chars : Word → List Byte) : Nat → Word → State → Option State
  | 0, _, _ => none
  | fuel + 1, a, s =>
    let r := stringRead a s
    if r.1 = 0x0000#16 then some r.2
    else emitString chars fuel (a + 1#16) (outBytes (chars r.1) r.2)

/-- R178: one pass over the address space for each scripted poll answer, and one more; a pass makes one poll, and
where the reads do not poll, one pass decides whether the loop ends. -/
def stringFuel (s : State) : Nat :=
  memWords * (if s.cfg.putsReadsViaDevice then s.env.polls.length + 1 else 1)

/-- R173, R175: the loop from the pointer in R0, over the polls scripted. -/
def scriptedString (chars : Word → List Byte) (s : State) : Option State :=
  emitString chars (stringFuel s) (s.reg 0#3) s

/-- Log entry 10: the answers a string loop's polls get past the script: finitely many, the last of which finds no
input, or input at every poll. Of the latter as many are listed as there are scripted characters to read. -/
def furtherPolls (s : State) : List Bool :=
  match Config.freePolls s.env.draws with
  | some ps => ps ++ [false]
  | none => List.replicate s.env.reads.length true

/-- R173, R175: where the loop needs more polls than are scripted, it goes on over the further ones. If it does not end
over these, every poll finds input, no scripted character is a zero word, and it never ends (log entry 10). -/
def suppliedString (chars : Word → List Byte) (s : State) : Option State :=
  if s.cfg.putsReadsViaDevice then (scriptedString chars (supplyPolls (furtherPolls s) s)).map dropPolls else none

/-- R173, R175: the state the loop ends in. -/
def stringEnd (chars : Word → List Byte) (s : State) : Option State :=
  match scriptedString chars s with
  | some t => some t
  | none => suppliedString chars s

/-- R173, R175: a string routine; a loop that never ends is stuck (U14). -/
def putString (chars : Word → List Byte) (s : State) : Host.Outcome State Fault Refusal :=
  match stringEnd chars s with
  | some t => .next (outFlush t)
  | none => .fault .stringNeverEnds

/-- R173 (D12): the character is the low byte. -/
def putsChars (w : Word) : List Byte := [w.extractLsb' 0 8]

/-- R175: the low byte, then the high byte if it is not zero. -/
def putspChars (w : Word) : List Byte :=
  w.extractLsb' 0 8 :: (if w.extractLsb' 8 8 = 0x00#8 then [] else [w.extractLsb' 8 8])

/-- R171 -/
def execTrapGetc (s : State) : Host.Outcome State Fault Refusal :=
  blockingRead (saveReturn s) (fun c t => writeDest 0#3 (inputWord t.cfg c) t)

/-- R172 -/
def execTrapOut (s : State) : Host.Outcome State Fault Refusal :=
  .next (outFlush (outBytes [((saveReturn s).reg 0#3).extractLsb' 0 8] (saveReturn s)))

/-- R173 -/
def execTrapPuts (s : State) : Host.Outcome State Fault Refusal :=
  putString putsChars (saveReturn s)

/-- R174: prompt, read, echo, flush, write R0. -/
def execTrapIn (s : State) : Host.Outcome State Fault Refusal :=
  blockingRead (outBytes s.cfg.inPrompt (saveReturn s))
    (fun c t => writeDest 0#3 (inputWord t.cfg c) (outFlush (outBytes [echoByte t.cfg c] t)))

/-- R175 -/
def execTrapPutsp (s : State) : Host.Outcome State Fault Refusal :=
  putString putspChars (saveReturn s)

/-- R176 -/
def execTrapHalt (s : State) : Host.Outcome State Fault Refusal :=
  .next (halt (outFlush (outBytes s.cfg.haltNotice (saveReturn s))))

/-- R177, under either policy. -/
def execTrapOther (vect : BitVec 8) (s : State) : Host.Outcome State Fault Refusal :=
  match s.cfg.unknownTrap with
  | .abort => .next (raiseFault (.unknownTrap vect s.ir s.instrAddr) (saveReturn s))
  | .noOp => .next (saveReturn s)

end Sys2Proof.Machine
end

