-- ==== Sys2Proof/Machine/Terminal.lean ====
section
/-! DEFINITION. How a step ends, and what the host sees at the end of a run (60_exceptions.md rules R200, R209). -/

namespace Sys2Proof.Machine

/-- D18, U1: a step whose instruction raised a fault is a fault of the machine, with what stays observable. -/
def finishStep (o : Host.Outcome State Fault Refusal) : Host.Outcome State Fault Refusal :=
  match o with
  | .next t =>
    match t.run with
    | .aborted r => .fault (.aborted r t.out)
    | .running | .halted | .stopped => .next t
  | .fault f => .fault f
  | .refused r => .refused r

/-- R110: outside RUNNING no step is taken and no state changes. DEDUCED (log entry 7): the state stays as it is;
ABORTED is a fault (D18). -/
def terminalStep (s : State) : Host.Outcome State Fault Refusal := finishStep (.next s)

/-- R209: the status reported to the host; EXIT_HALT is 0. -/
def exitStatus (s : State) : Option Int :=
  match s.run with
  | .running => none
  | .halted => some 0
  | .aborted _ => some s.cfg.exitAbort
  | .stopped => some s.cfg.exitStop

/-- R209: what stays observable in a terminal state. -/
inductive Observation where
  | halted (x : Vector Word 8) (pc : Word) (cc : CC) (mem : Memory) (out : List Byte)
  | aborted (record : FaultRecord) (out : List Byte)
  | stopped (out : List Byte)
  deriving DecidableEq, Repr

/-- R209, D18. -/
def observe (s : State) : Option Observation :=
  match s.run with
  | .running => none
  | .halted => some (.halted s.x s.pc s.cc s.mem s.out)
  | .aborted r => some (.aborted r s.out)
  | .stopped => some (.stopped s.out)

end Sys2Proof.Machine
end

