-- ==== Sys2Proof/Machine/Step.lean ====
section
/-! DEFINITION. The instruction step (40_fetch_decode.md rule R110), the stop request sampled before it (R208). -/

namespace Sys2Proof.Machine

/-- R110, R207: the stop request, then fetch, decode and execute. -/
def step (s : State) : Host.Outcome State Fault Refusal :=
  match s.run with
  | .running =>
    let q := sampleStop s
    if q.1 then .next (stopRun q.2)
    else finishStep (exec (decode (fetch q.2).ir) (fetch q.2))
  | .halted | .aborted _ | .stopped => terminalStep s

/-- The instruction's word stored where the next fetch reads it, as the loader stores (R229; log entry 11). -/
def State.withFetchWord (s : State) (nbits w : Nat) : State := memWrite s.pc (tableWord nbits w) s

end Sys2Proof.Machine
end

