-- ==== Sys2Proof/Machine/Boot.lean ====
section
/-! DEFINITION. The boot interface: the image loader (70_reset_and_hazards.md rules R222 to R229). -/

namespace Sys2Proof.Machine

/-- R226: the boot failures; the index is the failing image's place in the host's order. -/
inductive BootError where
  | noImages
  | unreadable (index : Nat)
  | tooShort (index : Nat)
  deriving DecidableEq, Repr

/-- R227, R228: big-endian words; an odd last byte is ignored. -/
def imageWords : List Byte → List Word
  | hi :: lo :: rest => (hi ++ lo) :: imageWords rest
  | [_] => []
  | [] => []

/-- R223, R224, R229: content words go to consecutive cells from `a`, those past 0xFFFF are dropped. -/
def loadWords (a : Nat) : List Word → State → State
  | [], s => s
  | w :: ws, s => if a < memWords then loadWords (a + 1) ws (memWrite (BitVec.ofNat 16 a) w s) else s

/-- R223, R226: one image; without a whole origin word it cannot be loaded. -/
def loadImage (bytes : List Byte) (s : State) : Option State :=
  match imageWords bytes with
  | [] => none
  | origin :: content => some (loadWords origin.toNat content s)

/-- R222, R225: the images in the host's order, from the one of index `k`; `none` is a missing or unreadable file. -/
def loadImages (k : Nat) : List (Option (List Byte)) → State → Except BootError State
  | [], s => .ok s
  | none :: _, _ => .error (.unreadable k)
  | some bytes :: rest, s =>
    match loadImage bytes s with
    | none => .error (.tooShort k)
    | some t => loadImages (k + 1) rest t

/-- R222: reset, with the host's parameters and environment, then the images; the run then starts at 0x3000. -/
def boot (cfg : Config) (env : Env) (images : List (Option (List Byte))) : Except BootError State :=
  match images with
  | [] => .error .noImages
  | _ :: _ => loadImages 0 images { State.reset with cfg := cfg, env := env }

end Sys2Proof.Machine
end

