-- ==== Sys2Proof/Machine/Signals.lean ====
section
/-! DEFINITION. The decoder's output signals (40_fetch_decode.md rule R120), functions of `ir` alone. -/

namespace Sys2Proof.Machine

/-- R120: `pc_src`. -/
inductive PcSrc where
  | seq
  | brTarget
  | reg
  | jsrTarget
  deriving DecidableEq, Repr

/-- R120: the decoded signals. -/
structure Signals where
  op : BitVec 4
  dr : RegIdx
  sr1 : RegIdx
  sr2 : RegIdx
  immFlag : BitVec 1
  longFlag : BitVec 1
  nzp : BitVec 3
  imm16 : Word
  off6 : Word
  off9 : Word
  off11 : Word
  trapvect : BitVec 8
  regWrite : Bool
  ccWrite : Bool
  memRead : Bool
  memWrite : Bool
  indirect : Bool
  pcSrc : PcSrc
  reserved : Bool
  deriving DecidableEq, Repr

/-- ADD, LD, AND, LDR, NOT, LDI, LEA: the opcodes that define a destination register (R22, R27). -/
def definingOps : List (BitVec 4) := [0x1#4, 0x2#4, 0x5#4, 0x6#4, 0x9#4, 0xA#4, 0xE#4]

/-- R120, with the values 41 to 44 give: a TRAP writes R7 and, by vector, R0 and `cc`, and PUTS and PUTSP read. -/
def signals (ir : Word) : Signals :=
  { op := opOf ir
    dr := drOf ir
    sr1 := sr1Of ir
    sr2 := sr2Of ir
    immFlag := immFlagOf ir
    longFlag := longFlagOf ir
    nzp := nzpOf ir
    imm16 := sext (imm5Of ir)
    off6 := sext (off6Of ir)
    off9 := sext (off9Of ir)
    off11 := sext (off11Of ir)
    trapvect := trapvectOf ir
    regWrite := (0x4#4 :: 0xF#4 :: definingOps).contains (opOf ir)
    ccWrite := definingOps.contains (opOf ir) || opOf ir == 0xF#4 && [vectGetc, vectIn].contains (trapvectOf ir)
    memRead := [0x2#4, 0x6#4, 0xA#4, 0xB#4].contains (opOf ir) ||
      opOf ir == 0xF#4 && [vectPuts, vectPutsp].contains (trapvectOf ir)
    memWrite := [0x3#4, 0x7#4, 0xB#4].contains (opOf ir)
    indirect := [0xA#4, 0xB#4].contains (opOf ir)
    pcSrc :=
      if opOf ir = 0x0#4 then .brTarget
      else if opOf ir = 0xC#4 then .reg
      else if opOf ir = 0x4#4 then (if longFlagOf ir = 1#1 then .jsrTarget else .reg)
      else .seq
    reserved := [0x8#4, 0xD#4].contains (opOf ir) }

end Sys2Proof.Machine
end

