-- ==== Sys2Proof/Safety.lean ====
section
/-! DEFINITION. The terms claims are stated in: the invariant of the machine, what a frame says, the spec's tables of
who writes what, and the exact arithmetic of its rules. Written from the spec's tables, not from the meanings. -/

namespace Sys2Proof.Machine

/-- The invariant: memory in its canonical form, legal parameters (R8, D17), and a run state that no ABORTED run
has left behind (D18 "never as a final state"). -/
abbrev State.Inv (s : State) : Prop :=
  s.mem.wf ∧ legalConfig s.cfg ∧ ∀ r, s.run ≠ .aborted r

/-! ## Frames -/

/-- Every register outside `written` is unchanged. -/
def sameRegs (written : List RegIdx) (s t : State) : Prop := ∀ r, r ∉ written → t.reg r = s.reg r

/-- Every cell outside `written` reads as before. -/
def sameCells (written : List Word) (s t : State) : Prop := ∀ a, a ∉ written → storeRead a t = storeRead a s

/-- `t` is `s` but for the registers and the cells listed, `pc`, `cc`, `run`, `out` and the environment. -/
def frame (regs : List RegIdx) (cells : List Word) (s t : State) : Prop :=
  sameRegs regs s t ∧ sameCells cells s t ∧ t.ir = s.ir ∧ t.cfg = s.cfg

/-- The same, with `run`, `out` and the environment unchanged too: an instruction that makes no I/O call. -/
def quietFrame (regs : List RegIdx) (cells : List Word) (s t : State) : Prop :=
  frame regs cells s t ∧ t.run = s.run ∧ t.out = s.out ∧ t.env = s.env

/-- The frame of an instruction whose MemReads, at the addresses `reads`, leave the state `u`: the cells are those of
`u` but for `cells`, and where no read is of the status cell, those of `s` (R52, R61). -/
def readFrame (regs : List RegIdx) (cells reads : List Word) (s u t : State) : Prop :=
  frame regs (s.cfg.kbsrAddr :: s.cfg.kbdrAddr :: cells) s t ∧ t.run = s.run ∧ t.out = s.out ∧
    sameCells cells u t ∧ t.env = u.env ∧
    (s.cfg.kbsrAddr ∉ reads → sameCells cells s t ∧ t.env = s.env)

/-- The frame of a TRAP routine that reads no input: R7, `out` and the run state may change. -/
def trapFrame (s t : State) : Prop :=
  frame [7#3] [] s t ∧ t.reg 7#3 = s.pc ∧ t.pc = s.pc ∧ t.cc = s.cc ∧ t.env = s.env

/-! ## Arithmetic in the integers -/

/-- R10: an exact sum, narrowed to a Word. -/
def wrap (n : Int) : Word := BitVec.ofInt 16 n

/-- R27, by the signed value: zero, negative, positive. -/
def ccMatches (c : CC) (v : Word) : Prop :=
  (v.toInt = 0 → c = .z) ∧ (v.toInt < 0 → c = .n) ∧ (0 < v.toInt → c = .p)

/-- R140: the condition code's own bit of n, z, p is set. -/
def selects (nzp : BitVec 3) : CC → Bool
  | .n => nzp.getLsbD 2
  | .z => nzp.getLsbD 1
  | .p => nzp.getLsbD 0

/-! ## The spec's tables -/

/-- R22: which registers an instruction writes. -/
def regWrites : Instr → List RegIdx
  | .addReg dr _ _ | .addImm dr _ _ | .andReg dr _ _ | .andImm dr _ _ | .not dr _ => [dr]
  | .ld dr _ | .ldi dr _ | .ldr dr _ _ | .lea dr _ => [dr]
  | .jsr _ | .jsrr _ => [7#3]
  | .trapGetc | .trapIn => [7#3, 0#3]
  | .trapOut | .trapPuts | .trapPutsp | .trapHalt | .trapOther _ => [7#3]
  | .br _ _ | .jmp _ | .st _ _ | .sti _ _ | .str _ _ _ => []
  | .rsv8 | .rsv13 => []

/-- R14, R27: the destination of a register-defining instruction, which updates `cc`. -/
def definedReg : Instr → Option RegIdx
  | .addReg dr _ _ | .addImm dr _ _ | .andReg dr _ _ | .andImm dr _ _ | .not dr _ => some dr
  | .ld dr _ | .ldi dr _ | .ldr dr _ _ | .lea dr _ => some dr
  | .trapGetc | .trapIn => some 0#3
  | .br _ _ | .jmp _ | .st _ _ | .sti _ _ | .str _ _ _ | .jsr _ | .jsrr _ => none
  | .trapOut | .trapPuts | .trapPutsp | .trapHalt | .trapOther _ | .rsv8 | .rsv13 => none

/-- R25: the instructions that write `pc`. -/
def writesPc : Instr → Bool
  | .br _ _ | .jmp _ | .jsr _ | .jsrr _ => true
  | .addReg _ _ _ | .addImm _ _ _ | .andReg _ _ _ | .andImm _ _ _ | .not _ _ => false
  | .ld _ _ | .ldi _ _ | .ldr _ _ _ | .lea _ _ | .st _ _ | .sti _ _ | .str _ _ _ => false
  | .trapGetc | .trapOut | .trapPuts | .trapIn | .trapPutsp | .trapHalt | .trapOther _ | .rsv8 | .rsv13 => false

/-- R60: the instructions that read memory, all but PUTS and PUTSP through MemRead. -/
def readsMemory : Instr → Bool
  | .ld _ _ | .ldi _ _ | .ldr _ _ _ | .sti _ _ | .trapPuts | .trapPutsp => true
  | .addReg _ _ _ | .addImm _ _ _ | .andReg _ _ _ | .andImm _ _ _ | .not _ _ | .br _ _ | .jmp _ => false
  | .jsr _ | .jsrr _ | .lea _ _ | .st _ _ | .str _ _ _ => false
  | .trapGetc | .trapOut | .trapIn | .trapHalt | .trapOther _ | .rsv8 | .rsv13 => false

/-- R33, R171, R174: the instructions that read a character. -/
def readsInput : Instr → Bool
  | .trapGetc | .trapIn => true
  | .addReg _ _ _ | .addImm _ _ _ | .andReg _ _ _ | .andImm _ _ _ | .not _ _ | .br _ _ | .jmp _ => false
  | .jsr _ | .jsrr _ | .lea _ _ | .st _ _ | .str _ _ _ | .ld _ _ | .ldi _ _ | .ldr _ _ _ | .sti _ _ => false
  | .trapOut | .trapPuts | .trapPutsp | .trapHalt | .trapOther _ | .rsv8 | .rsv13 => false

/-- R57, R211: the instructions that can emit output. -/
def emitsOutput : Instr → Bool
  | .trapOut | .trapPuts | .trapIn | .trapPutsp | .trapHalt => true
  | .addReg _ _ _ | .addImm _ _ _ | .andReg _ _ _ | .andImm _ _ _ | .not _ _ | .br _ _ | .jmp _ => false
  | .jsr _ | .jsrr _ | .lea _ _ | .st _ _ | .str _ _ _ | .ld _ _ | .ldi _ _ | .ldr _ _ _ | .sti _ _ => false
  | .trapGetc | .trapOther _ | .rsv8 | .rsv13 => false

/-- R155 to R157: the cell a store writes, in the state `s` it executes in. -/
def storedCells : Instr → State → List Word
  | .st _ off, s => [pcRel9 off s]
  | .sti _ off, s => [(memRead (pcRel9 off s) s).1]
  | .str _ base off, s => [baseOff6 base off s]
  | .addReg _ _ _, _ | .addImm _ _ _, _ | .andReg _ _ _, _ | .andImm _ _ _, _ | .not _ _, _ => []
  | .br _ _, _ | .jmp _, _ | .jsr _, _ | .jsrr _, _ | .lea _ _, _ | .ld _ _, _ | .ldi _ _, _ | .ldr _ _ _, _ => []
  | .trapGetc, _ | .trapOut, _ | .trapPuts, _ | .trapIn, _ | .trapPutsp, _ | .trapHalt, _ => []
  | .trapOther _, _ | .rsv8, _ | .rsv13, _ => []

/-- R120, R152, R156: the instructions whose address is a pointer read from memory. -/
def usesPointer : Instr → Bool
  | .ldi _ _ | .sti _ _ => true
  | .addReg _ _ _ | .addImm _ _ _ | .andReg _ _ _ | .andImm _ _ _ | .not _ _ | .br _ _ | .jmp _ => false
  | .jsr _ | .jsrr _ | .lea _ _ | .st _ _ | .str _ _ _ | .ld _ _ | .ldr _ _ _ => false
  | .trapGetc | .trapOut | .trapPuts | .trapIn | .trapPutsp | .trapHalt | .trapOther _ | .rsv8 | .rsv13 => false

/-- R120, R140 to R143: where an instruction's next `pc` can come from. -/
def pcSource : Instr → PcSrc
  | .br _ _ => .brTarget
  | .jmp _ | .jsrr _ => .reg
  | .jsr _ => .jsrTarget
  | .addReg _ _ _ | .addImm _ _ _ | .andReg _ _ _ | .andImm _ _ _ | .not _ _ => .seq
  | .ld _ _ | .ldi _ _ | .ldr _ _ _ | .lea _ _ | .st _ _ | .sti _ _ | .str _ _ _ => .seq
  | .trapGetc | .trapOut | .trapPuts | .trapIn | .trapPutsp | .trapHalt | .trapOther _ | .rsv8 | .rsv13 => .seq

/-- R86: the bits of a word that have no effect. -/
def ignoredBits (w : Word) : Word :=
  if opOf w = 0x1#4 ∨ opOf w = 0x5#4 then (if immFlagOf w = 0#1 then 0x0018#16 else 0x0000#16)
  else if opOf w = 0x9#4 then 0x003F#16
  else if opOf w = 0xC#4 then 0x0E3F#16
  else if opOf w = 0x4#4 then (if longFlagOf w = 0#1 then 0x063F#16 else 0x0000#16)
  else if opOf w = 0xF#4 then 0x0F00#16
  else if opOf w = 0x8#4 ∨ opOf w = 0xD#4 then 0x0FFF#16
  else 0x0000#16

/-! ## Strings and images -/

/-- The words of memory from the pointer in R0: the `j`-th of them. -/
def stringWord (s : State) (j : Nat) : Word := storeRead (s.reg 0#3 + BitVec.ofNat 16 j) s

/-- R173, R175: the string at R0 has `k` words before its first zero word; read without a poll (R54). -/
def stringOfLength (s : State) (k : Nat) : Prop :=
  k < memWords ∧ (∀ j < k, stringWord s j ≠ 0x0000#16) ∧ stringWord s k = 0x0000#16 ∧
    (s.cfg.putsReadsViaDevice = false ∨ ∀ j ≤ k, s.reg 0#3 + BitVec.ofNat 16 j ≠ s.cfg.kbsrAddr)

/-- R52, R54: no string read's poll can change the cell `a`: with raw reads any cell, otherwise all but the two keyboard
cells. -/
abbrev keptByStringReads (s : State) (a : Word) : Prop :=
  s.cfg.putsReadsViaDevice = false ∨ (a ≠ s.cfg.kbsrAddr ∧ a ≠ s.cfg.kbdrAddr)

/-- R173, U14: nothing in `s` ends a string loop: no word is zero but a keyboard cell's, which a poll rewrites; every
poll finds input, those scripted and, as their free value says, all that follow; and no scripted character puts a zero
word into the data cell (log entry 10). -/
def stringHangs (s : State) : Prop :=
  (∀ a, keptByStringReads s a → storeRead a s ≠ 0x0000#16) ∧
    (s.cfg.putsReadsViaDevice = true → (∀ b ∈ s.env.polls, b = true) ∧
      Config.freePolls s.env.draws = none ∧ ∀ c ∈ s.env.reads, inputWord s.cfg c ≠ 0x0000#16)

/-- The frame of a string routine whose reads may poll: R7, `out`, the keyboard cells and the environment may change. -/
def stringFrame (s t : State) : Prop :=
  frame [7#3] [s.cfg.kbsrAddr, s.cfg.kbdrAddr] s t ∧ t.reg 7#3 = s.pc ∧ t.pc = s.pc ∧ t.cc = s.cc ∧ t.run = s.run ∧
    ∃ bs, t.out = s.out ++ bs

/-- R227: a word's bytes in an image file, the high byte first. -/
def wordBytes (w : Word) : List Byte := [w.extractLsb' 8 8, w.extractLsb' 0 8]

/-! ## The string loop of R173 and R175, as a relation -/

/-- From the pointer `a` in state `s` the loop ends in state `t`: at a zero word, or after a character word has been
emitted and the loop has ended from the next address. -/
inductive StringRun (chars : Word → List Byte) : Word → State → State → Prop where
  | stop {a : Word} {s : State} (h : (stringRead a s).1 = 0x0000#16) : StringRun chars a s (stringRead a s).2
  | more {a : Word} {s t : State} (h : (stringRead a s).1 ≠ 0x0000#16)
      (rest : StringRun chars (a + 1#16) (outBytes (chars (stringRead a s).1) (stringRead a s).2) t) :
      StringRun chars a s t

/-- The loop of a string routine takes `s` to `t`: over the polls scripted, or, where none of these ends it, over further
polls that the environment supplies (log entry 10). -/
def StringRoutine (chars : Word → List Byte) (s t : State) : Prop :=
  StringRun chars (s.reg 0#3) s t ∨
    (s.cfg.putsReadsViaDevice = true ∧ (∀ b ∈ s.env.polls, b = true) ∧
      ∃ ps u, StringRun chars (s.reg 0#3) (supplyPolls ps s) u ∧ t = dropPolls u)

end Sys2Proof.Machine
end

