-- ==== Sys2Proof/Certificates/Slice0/Obligations.lean ====
section
/-! DEFINITION. The statements for the provers, from the numbered rules of spec/. -/

open Sys2Proof Sys2Proof.Machine

/-! ## Reset, the invariant, the encoding -/

/-- R220: the state reset leaves. -/
def Obligations.ResetLeavesTheSpecifiedState : Prop :=
  (∀ r, State.reset.reg r = 0x0000#16) ∧ State.reset.pc = 0x3000#16 ∧ State.reset.cc = .z ∧
    (∀ a, storeRead a State.reset = 0x0000#16) ∧ State.reset.run = .running ∧ State.reset.out = []

/-- Memory is canonical, the parameters legal and no fault pending at reset (R8, R35; log entries 2 and 8). -/
def Obligations.ResetMeetsTheInvariant : Prop := State.reset.Inv

/-- Every step from a state that meets the invariant, reachable or not, gives one that meets it. -/
def Obligations.EveryStepKeepsTheInvariant : Prop :=
  ∀ s t : State, s.Inv → step s = .next t → t.Inv

/-- Decoding an encoded well-formed instruction gives it back, with every operand value. -/
def Obligations.DecodeOfEncodeIsTheInstruction : Prop :=
  ∀ i : Instr, i.wf = true → decode (encode i) = i

/-- R90: whatever the word, the instruction it decodes to is well-formed. -/
def Obligations.EveryWordDecodesToAWellFormedInstruction : Prop :=
  ∀ w : Word, (decode w).wf = true

/-- R86: words that agree outside the ignored bits decode to the same instruction. -/
def Obligations.IgnoredBitsHaveNoEffect : Prop :=
  ∀ w w' : Word, w &&& ~~~(ignoredBits w) = w' &&& ~~~(ignoredBits w) → decode w' = decode w

/-- R86: no checked bit of a word is lost by decoding it. -/
def Obligations.EncodeOfDecodeKeepsEveryCheckedBit : Prop :=
  ∀ w : Word, encode (decode w) &&& ~~~(ignoredBits w) = w &&& ~~~(ignoredBits w)

/-- A few words written out from the encodings of 41 to 44. -/
def Obligations.WordsOfTheSpecDecode : Prop :=
  decode 0b0001000001000010#16 = .addReg 0#3 1#3 2#3 ∧
  decode 0b0001000001100011#16 = .addImm 0#3 1#3 3#5 ∧
  decode 0b0000010000000010#16 = .br 0b010#3 2#9 ∧
  decode 0b0100100000000011#16 = .jsr 3#11 ∧
  decode 0b0100000111000000#16 = .jsrr 7#3 ∧
  decode 0b0110011100100000#16 = .ldr 3#3 4#3 0b100000#6 ∧
  decode 0b1011010111111110#16 = .sti 2#3 0b111111110#9 ∧
  decode 0b1111000000100101#16 = .trapHalt ∧
  decode 0b1111000000100110#16 = .trapOther 0x26#8

/-- R11: sign and zero extension of every field. -/
def Obligations.SignExtensionFollowsTheRule : Prop :=
  (∀ f : BitVec 5, sext f = if f.getLsbD 4 then f.setWidth 16 ||| (0xFFFF#16 <<< 5) else f.setWidth 16) ∧
  (∀ f : BitVec 6, sext f = if f.getLsbD 5 then f.setWidth 16 ||| (0xFFFF#16 <<< 6) else f.setWidth 16) ∧
  (∀ f : BitVec 9, sext f = if f.getLsbD 8 then f.setWidth 16 ||| (0xFFFF#16 <<< 9) else f.setWidth 16) ∧
  (∀ f : BitVec 11, sext f = if f.getLsbD 10 then f.setWidth 16 ||| (0xFFFF#16 <<< 11) else f.setWidth 16) ∧
  (∀ b : Byte, (zext16 b).extractLsb' 8 8 = 0x00#8 ∧ (zext16 b).extractLsb' 0 8 = b)

/-- R26, R27: the flag of a value and its bit; only `cc` changes. -/
def Obligations.SetccPicksTheFlagOfTheSignedValue : Prop :=
  ∀ (v : Word) (s : State), ccMatches (setcc v s).cc v ∧
    (v = 0x0000#16 → ccBits (setcc v s).cc = 0b010#3) ∧
    (v ≠ 0x0000#16 → v.getLsbD 15 = true → ccBits (setcc v s).cc = 0b100#3) ∧
    (v ≠ 0x0000#16 → v.getLsbD 15 = false → ccBits (setcc v s).cc = 0b001#3) ∧
    (setcc v s).pc = s.pc ∧ quietFrame [] [] s (setcc v s)

/-! ## The operate instructions -/

/-- R130 -/
def Obligations.AddRegisterAddsTwoRegisters : Prop :=
  (∀ w : Word, w &&& 0xF020#16 = 0x1000#16 →
    decode w = .addReg (w.extractLsb' 9 3) (w.extractLsb' 6 3) (w.extractLsb' 0 3)) ∧
  ∀ (dr sr1 sr2 : RegIdx) (s : State), ∃ t, exec (.addReg dr sr1 sr2) s = .next t ∧
    t.reg dr = wrap ((s.reg sr1).toNat + (s.reg sr2).toNat) ∧ ccMatches t.cc (t.reg dr) ∧
    t.pc = s.pc ∧ quietFrame [dr] [] s t

/-- R131 -/
def Obligations.AddImmediateAddsTheSignedField : Prop :=
  (∀ w : Word, w &&& 0xF020#16 = 0x1020#16 →
    decode w = .addImm (w.extractLsb' 9 3) (w.extractLsb' 6 3) (w.extractLsb' 0 5)) ∧
  ∀ (dr sr1 : RegIdx) (imm : BitVec 5) (s : State), ∃ t, exec (.addImm dr sr1 imm) s = .next t ∧
    t.reg dr = wrap ((s.reg sr1).toNat + imm.toInt) ∧ ccMatches t.cc (t.reg dr) ∧
    t.pc = s.pc ∧ quietFrame [dr] [] s t

/-- R132 -/
def Obligations.AndRegisterAndsEachBit : Prop :=
  (∀ w : Word, w &&& 0xF020#16 = 0x5000#16 →
    decode w = .andReg (w.extractLsb' 9 3) (w.extractLsb' 6 3) (w.extractLsb' 0 3)) ∧
  ∀ (dr sr1 sr2 : RegIdx) (s : State), ∃ t, exec (.andReg dr sr1 sr2) s = .next t ∧
    (∀ k < 16, (t.reg dr).getLsbD k = ((s.reg sr1).getLsbD k && (s.reg sr2).getLsbD k)) ∧
    ccMatches t.cc (t.reg dr) ∧ t.pc = s.pc ∧ quietFrame [dr] [] s t

/-- R133: bit 4 of the field stands in for the bits above it. -/
def Obligations.AndImmediateAndsTheExtendedField : Prop :=
  (∀ w : Word, w &&& 0xF020#16 = 0x5020#16 →
    decode w = .andImm (w.extractLsb' 9 3) (w.extractLsb' 6 3) (w.extractLsb' 0 5)) ∧
  ∀ (dr sr1 : RegIdx) (imm : BitVec 5) (s : State), ∃ t, exec (.andImm dr sr1 imm) s = .next t ∧
    (∀ k < 16, (t.reg dr).getLsbD k = ((s.reg sr1).getLsbD k && imm.getLsbD (min k 4))) ∧
    ccMatches t.cc (t.reg dr) ∧ t.pc = s.pc ∧ quietFrame [dr] [] s t

/-- R134 -/
def Obligations.NotComplementsEachBit : Prop :=
  (∀ w : Word, w &&& 0xF000#16 = 0x9000#16 → decode w = .not (w.extractLsb' 9 3) (w.extractLsb' 6 3)) ∧
  ∀ (dr sr1 : RegIdx) (s : State), ∃ t, exec (.not dr sr1) s = .next t ∧
    (∀ k < 16, (t.reg dr).getLsbD k = !(s.reg sr1).getLsbD k) ∧
    ccMatches t.cc (t.reg dr) ∧ t.pc = s.pc ∧ quietFrame [dr] [] s t

/-! ## The control transfers and the reserved opcodes -/

/-- R140 -/
def Obligations.BranchIsTakenOnASelectedFlag : Prop :=
  (∀ w : Word, w &&& 0xF000#16 = 0x0000#16 → decode w = .br (w.extractLsb' 9 3) (w.extractLsb' 0 9)) ∧
  ∀ (nzp : BitVec 3) (off : BitVec 9) (s : State), ∃ t, exec (.br nzp off) s = .next t ∧
    t.pc = (if selects nzp s.cc then wrap (s.pc.toNat + off.toInt) else s.pc) ∧
    t.cc = s.cc ∧ quietFrame [] [] s t

/-- R89: nzp = 000 is a no-op, nzp = 111 is always taken; the all-zero word is a no-op. -/
def Obligations.BranchOnNoFlagIsANoOp : Prop :=
  (∀ (w : Word) (s : State), w.extractLsb' 9 7 = 0b0000000#7 → exec (decode w) s = .next s) ∧
  (∀ (w : Word) (s : State), w.extractLsb' 9 7 = 0b0000111#7 →
    exec (decode w) s = .next { s with pc := wrap (s.pc.toNat + (w.extractLsb' 0 9).toInt) }) ∧
  ∀ s : State, exec (decode 0x0000#16) s = .next s

/-- R141 -/
def Obligations.JumpGoesToTheBaseRegister : Prop :=
  (∀ w : Word, w &&& 0xF000#16 = 0xC000#16 → decode w = .jmp (w.extractLsb' 6 3)) ∧
  ∀ (base : RegIdx) (s : State), ∃ t, exec (.jmp base) s = .next t ∧
    t.pc = s.reg base ∧ t.cc = s.cc ∧ quietFrame [] [] s t

/-- R142 -/
def Obligations.JsrLinksAndBranches : Prop :=
  (∀ w : Word, w &&& 0xF800#16 = 0x4800#16 → decode w = .jsr (w.extractLsb' 0 11)) ∧
  ∀ (off : BitVec 11) (s : State), ∃ t, exec (.jsr off) s = .next t ∧
    t.reg 7#3 = s.pc ∧ t.pc = wrap (s.pc.toNat + off.toInt) ∧ t.cc = s.cc ∧ quietFrame [7#3] [] s t

/-- R143: R7 is written before the base is read, so JSRR R7 falls through. -/
def Obligations.JsrrLinksBeforeItReadsTheBase : Prop :=
  (∀ w : Word, w &&& 0xF800#16 = 0x4000#16 → decode w = .jsrr (w.extractLsb' 6 3)) ∧
  ∀ (base : RegIdx) (s : State), ∃ t, exec (.jsrr base) s = .next t ∧
    t.reg 7#3 = s.pc ∧ t.pc = (if base = 7#3 then s.pc else s.reg base) ∧ t.cc = s.cc ∧ quietFrame [7#3] [] s t

/-- R87, R201: both reserved opcodes, whatever bits 11 to 0: the fault is raised and nothing else changes. -/
def Obligations.ReservedOpcodesRaiseTheirFault : Prop :=
  (∀ w : Word, w &&& 0xF000#16 = 0x8000#16 → decode w = .rsv8) ∧
  (∀ w : Word, w &&& 0xF000#16 = 0xD000#16 → decode w = .rsv13) ∧
  (∀ s : State, exec .rsv8 s =
    .next { s with run := .aborted (.reservedOpcode 8#4 s.ir (wrap (s.pc.toNat - 1))) }) ∧
  (∀ s : State, exec .rsv13 s =
    .next { s with run := .aborted (.reservedOpcode 13#4 s.ir (wrap (s.pc.toNat - 1))) }) ∧
  ∀ (op : BitVec 4) (ir addr : Word), (FaultRecord.reservedOpcode op ir addr).code = 1

/-! ## The load/store unit -/

/-- R151 -/
def Obligations.LoadReadsPcRelative : Prop :=
  (∀ w : Word, w &&& 0xF000#16 = 0x2000#16 → decode w = .ld (w.extractLsb' 9 3) (w.extractLsb' 0 9)) ∧
  ∀ (dr : RegIdx) (off : BitVec 9) (s : State) (r : Word × State),
    r = memRead (wrap (s.pc.toNat + off.toInt)) s →
    ∃ t, exec (.ld dr off) s = .next t ∧ t.reg dr = r.1 ∧ ccMatches t.cc r.1 ∧ t.pc = s.pc ∧
      readFrame [dr] [] [wrap (s.pc.toNat + off.toInt)] s r.2 t

/-- R152: the pointer is read first, then the data, each through MemRead. -/
def Obligations.LoadIndirectReadsThePointerThenTheData : Prop :=
  (∀ w : Word, w &&& 0xF000#16 = 0xA000#16 → decode w = .ldi (w.extractLsb' 9 3) (w.extractLsb' 0 9)) ∧
  ∀ (dr : RegIdx) (off : BitVec 9) (s : State) (p r : Word × State),
    p = memRead (wrap (s.pc.toNat + off.toInt)) s → r = memRead p.1 p.2 →
    ∃ t, exec (.ldi dr off) s = .next t ∧ t.reg dr = r.1 ∧ ccMatches t.cc r.1 ∧ t.pc = s.pc ∧
      readFrame [dr] [] [wrap (s.pc.toNat + off.toInt), p.1] s r.2 t

/-- R153 -/
def Obligations.LoadRegisterReadsBasePlusOffset : Prop :=
  (∀ w : Word, w &&& 0xF000#16 = 0x6000#16 →
    decode w = .ldr (w.extractLsb' 9 3) (w.extractLsb' 6 3) (w.extractLsb' 0 6)) ∧
  ∀ (dr base : RegIdx) (off : BitVec 6) (s : State) (r : Word × State),
    r = memRead (wrap ((s.reg base).toNat + off.toInt)) s →
    ∃ t, exec (.ldr dr base off) s = .next t ∧ t.reg dr = r.1 ∧ ccMatches t.cc r.1 ∧ t.pc = s.pc ∧
      readFrame [dr] [] [wrap ((s.reg base).toNat + off.toInt)] s r.2 t

/-- R154: no memory access, so no poll; `cc` is set. -/
def Obligations.LeaComputesTheAddressAndSetsCc : Prop :=
  (∀ w : Word, w &&& 0xF000#16 = 0xE000#16 → decode w = .lea (w.extractLsb' 9 3) (w.extractLsb' 0 9)) ∧
  ∀ (dr : RegIdx) (off : BitVec 9) (s : State), ∃ t, exec (.lea dr off) s = .next t ∧
    t.reg dr = wrap (s.pc.toNat + off.toInt) ∧ ccMatches t.cc (t.reg dr) ∧ t.pc = s.pc ∧ quietFrame [dr] [] s t

/-- R155: the address stored to is `pcRel9 off s`. -/
def Obligations.StoreWritesPcRelative : Prop :=
  (∀ w : Word, w &&& 0xF000#16 = 0x3000#16 → decode w = .st (w.extractLsb' 9 3) (w.extractLsb' 0 9)) ∧
  ∀ (sr : RegIdx) (off : BitVec 9) (s : State), ∃ t, exec (.st sr off) s = .next t ∧
    pcRel9 off s = wrap (s.pc.toNat + off.toInt) ∧ storeRead (pcRel9 off s) t = s.reg sr ∧
    t.cc = s.cc ∧ t.pc = s.pc ∧ quietFrame [] [pcRel9 off s] s t

/-- R156: the pointer is read through MemRead, then the store goes where it points. -/
def Obligations.StoreIndirectWritesThroughThePointer : Prop :=
  (∀ w : Word, w &&& 0xF000#16 = 0xB000#16 → decode w = .sti (w.extractLsb' 9 3) (w.extractLsb' 0 9)) ∧
  ∀ (sr : RegIdx) (off : BitVec 9) (s : State) (p : Word × State), p = memRead (pcRel9 off s) s →
    ∃ t, exec (.sti sr off) s = .next t ∧ pcRel9 off s = wrap (s.pc.toNat + off.toInt) ∧
      storeRead p.1 t = s.reg sr ∧ t.cc = s.cc ∧ t.pc = s.pc ∧ readFrame [] [p.1] [pcRel9 off s] s p.2 t

/-- R157: the address stored to is `baseOff6 base off s`. -/
def Obligations.StoreRegisterWritesBasePlusOffset : Prop :=
  (∀ w : Word, w &&& 0xF000#16 = 0x7000#16 →
    decode w = .str (w.extractLsb' 9 3) (w.extractLsb' 6 3) (w.extractLsb' 0 6)) ∧
  ∀ (sr base : RegIdx) (off : BitVec 6) (s : State), ∃ t, exec (.str sr base off) s = .next t ∧
    baseOff6 base off s = wrap ((s.reg base).toNat + off.toInt) ∧
    storeRead (baseOff6 base off s) t = s.reg sr ∧
    t.cc = s.cc ∧ t.pc = s.pc ∧ quietFrame [] [baseOff6 base off s] s t

/-! ## TRAP and its routines -/

/-- R171: the answer `c` of the read goes to R0, extended, and sets `cc`; no echo, no keyboard cell changes. -/
def Obligations.GetcReadsACharacterIntoR0 : Prop :=
  (∀ w : Word, w &&& 0xF0FF#16 = 0xF020#16 → decode w = .trapGetc) ∧
  ∀ (s u : State) (c : InAnswer), (inWait s).1 = .answered → inRead (inWait s).2 = (c, u) →
    ∃ t, exec .trapGetc s = .next t ∧
      (∀ b, c = .byte b → (t.reg 0#3).toNat = b.toNat) ∧ (c = .eof → t.reg 0#3 = s.cfg.eofValue) ∧
      ccMatches t.cc (t.reg 0#3) ∧ t.reg 7#3 = s.pc ∧ t.pc = s.pc ∧ t.run = s.run ∧ t.out = s.out ∧
      t.env = u.env ∧ frame [7#3, 0#3] [] s t

/-- R172 -/
def Obligations.OutEmitsTheLowByteOfR0 : Prop :=
  (∀ w : Word, w &&& 0xF0FF#16 = 0xF021#16 → decode w = .trapOut) ∧
  ∀ s : State, ∃ t, exec .trapOut s = .next t ∧
    t.out = s.out ++ [BitVec.ofNat 8 ((s.reg 0#3).toNat % 256)] ∧ t.run = s.run ∧ trapFrame s t

/-- R173: the low byte of each word before the first zero word; R0 and `cc` stay. Over memory without a zero word the
instruction never completes. Whichever way strings are read (R54), a next state is the one the rule's loop ends in,
over the polls scripted or over further ones: the model's choice, log entry 10. -/
def Obligations.PutsEmitsUpToTheFirstZeroWord : Prop :=
  (∀ w : Word, w &&& 0xF0FF#16 = 0xF022#16 → decode w = .trapPuts) ∧
  (∀ (s : State) (k : Nat), stringOfLength s k → ∃ t, exec .trapPuts s = .next t ∧
    t.out = s.out ++ (List.range k).map (fun j => (stringWord s j).extractLsb' 0 8) ∧
    t.run = s.run ∧ trapFrame s t) ∧
  (∀ s : State, s.cfg.putsReadsViaDevice = false → (∀ a, storeRead a s ≠ 0x0000#16) →
    exec .trapPuts s = .fault .stringNeverEnds) ∧
  ∀ s t : State, exec .trapPuts s = .next t →
    StringRoutine (fun w => [w.extractLsb' 0 8]) (saveReturn s) t

/-- R174: prompt, then the echo of the answer `c`; R0 gets the answer and sets `cc`. -/
def Obligations.InPromptsReadsAndEchoes : Prop :=
  (∀ w : Word, w &&& 0xF0FF#16 = 0xF023#16 → decode w = .trapIn) ∧
  ∀ (s u : State) (c : InAnswer), (inWait s).1 = .answered → inRead (inWait s).2 = (c, u) →
    ∃ t, exec .trapIn s = .next t ∧
      (∀ b, c = .byte b → (t.reg 0#3).toNat = b.toNat ∧ t.out = s.out ++ s.cfg.inPrompt ++ [b]) ∧
      (c = .eof → t.reg 0#3 = s.cfg.eofValue ∧
        t.out = s.out ++ s.cfg.inPrompt ++ [s.cfg.eofValue.extractLsb' 0 8]) ∧
      ccMatches t.cc (t.reg 0#3) ∧ t.reg 7#3 = s.pc ∧ t.pc = s.pc ∧ t.run = s.run ∧
      t.env = u.env ∧ frame [7#3, 0#3] [] s t

/-- R175: of each word before the first zero word the low byte, then the high byte unless it is zero. Over memory
without a zero word the instruction never completes. Whichever way strings are read (R54), a next state is the one the
rule's loop ends in, over the polls scripted or over further ones: the model's choice, log entry 10. -/
def Obligations.PutspEmitsBothBytesOfEachWord : Prop :=
  (∀ w : Word, w &&& 0xF0FF#16 = 0xF024#16 → decode w = .trapPutsp) ∧
  (∀ (s : State) (k : Nat), stringOfLength s k → ∃ t, exec .trapPutsp s = .next t ∧
    t.out = s.out ++ (List.range k).flatMap (fun j =>
      if (stringWord s j).extractLsb' 8 8 = 0x00#8 then [(stringWord s j).extractLsb' 0 8]
      else [(stringWord s j).extractLsb' 0 8, (stringWord s j).extractLsb' 8 8]) ∧
    t.run = s.run ∧ trapFrame s t) ∧
  (∀ s : State, s.cfg.putsReadsViaDevice = false → (∀ a, storeRead a s ≠ 0x0000#16) →
    exec .trapPutsp s = .fault .stringNeverEnds) ∧
  ∀ s t : State, exec .trapPutsp s = .next t →
    StringRoutine (fun w => if w.extractLsb' 8 8 = 0x00#8 then [w.extractLsb' 0 8]
      else [w.extractLsb' 0 8, w.extractLsb' 8 8]) (saveReturn s) t

/-- R176, and the status reported (R209). -/
def Obligations.HaltEmitsItsNoticeAndHalts : Prop :=
  (∀ w : Word, w &&& 0xF0FF#16 = 0xF025#16 → decode w = .trapHalt) ∧
  ∀ s : State, ∃ t, exec .trapHalt s = .next t ∧
    t.out = s.out ++ s.cfg.haltNotice ∧ t.run = .halted ∧ trapFrame s t ∧ exitStatus t = some 0

/-- R177: both policies; the vector is outside the six. -/
def Obligations.UnlistedTrapFollowsThePolicy : Prop :=
  (∀ w : Word, w &&& 0xF000#16 = 0xF000#16 → (w.extractLsb' 0 8).toNat ∉ [0x20, 0x21, 0x22, 0x23, 0x24, 0x25] →
    decode w = .trapOther (w.extractLsb' 0 8)) ∧
  (∀ (v : BitVec 8) (s : State), s.cfg.unknownTrap = .abort → ∃ t, exec (.trapOther v) s = .next t ∧
    t.run = .aborted (.unknownTrap v s.ir (wrap (s.pc.toNat - 1))) ∧ t.out = s.out ∧ trapFrame s t) ∧
  (∀ (v : BitVec 8) (s : State), s.cfg.unknownTrap = .noOp → ∃ t, exec (.trapOther v) s = .next t ∧
    t.run = s.run ∧ t.out = s.out ∧ trapFrame s t) ∧
  ∀ (v : BitVec 8) (ir addr : Word), (FaultRecord.unknownTrap v ir addr).code = 2

/-- R208, D24: a stop request seen in the wait writes neither R0 nor `cc`, the R7 write and the prompt stand; a wait
that never ends is stuck (log entry 6). -/
def Obligations.BlockedReadEndsOnAStopRequestOrNever : Prop :=
  (∀ s : State, (inWait s).1 = .stopRequested → ∃ t, exec .trapGetc s = .next t ∧ t.run = .stopped ∧
    t.out = s.out ∧ t.reg 7#3 = s.pc ∧ t.pc = s.pc ∧ t.cc = s.cc ∧ t.env = (inWait s).2.env ∧ frame [7#3] [] s t) ∧
  (∀ s : State, (inWait s).1 = .stopRequested → ∃ t, exec .trapIn s = .next t ∧ t.run = .stopped ∧
    t.out = s.out ++ s.cfg.inPrompt ∧ t.reg 7#3 = s.pc ∧ t.pc = s.pc ∧ t.cc = s.cc ∧ t.env = (inWait s).2.env ∧
    frame [7#3] [] s t) ∧
  ∀ s : State, (inWait s).1 = .neverAnswered →
    exec .trapGetc s = .fault .blockedOnInput ∧ exec .trapIn s = .fault .blockedOnInput

/-- R173, R175, R178, U14: PUTS and PUTSP complete wherever a word is zero that no poll of theirs can rewrite, with raw
reads without a poll; and, where their reads poll, wherever a scripted poll finds no input, and, whatever the polls
answer, wherever a scripted character is a zero word (log entries 4 and 10). -/
def Obligations.StringRoutinesCompleteWhileAWordIsZero : Prop :=
  (∀ (s : State) (a : Word), s.cfg.putsReadsViaDevice = false → storeRead a s = 0x0000#16 →
    (∃ t, exec .trapPuts s = .next t ∧ t.run = s.run ∧ trapFrame s t) ∧
      ∃ t, exec .trapPutsp s = .next t ∧ t.run = s.run ∧ trapFrame s t) ∧
  (∀ (s : State) (a : Word), a ≠ s.cfg.kbsrAddr → a ≠ s.cfg.kbdrAddr → storeRead a s = 0x0000#16 →
    (∃ t, exec .trapPuts s = .next t ∧ stringFrame s t) ∧ ∃ t, exec .trapPutsp s = .next t ∧ stringFrame s t) ∧
  (∀ s : State, s.cfg.putsReadsViaDevice = true → false ∈ s.env.polls →
    (∃ t, exec .trapPuts s = .next t ∧ stringFrame s t) ∧ ∃ t, exec .trapPutsp s = .next t ∧ stringFrame s t) ∧
  ∀ (s : State) (c : InAnswer), s.cfg.putsReadsViaDevice = true → c ∈ s.env.reads → inputWord s.cfg c = 0x0000#16 →
    (∃ t, exec .trapPuts s = .next t ∧ stringFrame s t) ∧ ∃ t, exec .trapPutsp s = .next t ∧ stringFrame s t

/-! ## The step, the fetch and the ends of a run -/

/-- R110, R111: while running and not asked to stop, a step executes the instruction the word at `pc` decodes to,
in the state the fetch leaves; its outcome is the step's, but that a raised fault is a fault of the machine. -/
def Obligations.StepRunsTheDecodedInstruction : Prop :=
  (∀ (s q : State) (r : Word × State), s.run = .running → sampleStop s = (false, q) → r = memRead s.pc q →
    step s = finishStep (exec (decode r.1) { r.2 with ir := r.1, pc := wrap (s.pc.toNat + 1) })) ∧
  (∀ t : State, (∀ r, t.run ≠ .aborted r) → finishStep (.next t) = .next t) ∧
  (∀ (t : State) (r : FaultRecord), t.run = .aborted r → finishStep (.next t) = .fault (.aborted r t.out)) ∧
  ∀ f : Fault, finishStep (.fault f) = .fault f

/-- R207, R208: a stop request is taken before the fetch; nothing but the run state changes. -/
def Obligations.StopRequestIsTakenBeforeTheFetch : Prop :=
  ∀ s q : State, s.run = .running → sampleStop s = (true, q) → ∃ t, step s = .next t ∧ t.run = .stopped ∧
    t.pc = s.pc ∧ t.cc = s.cc ∧ t.out = s.out ∧ t.env = q.env ∧ frame [] [] s t

/-- R110, R209: HALTED and STOPPED take no step and change no state, ABORTED is a fault (D18; log entry 7); the
statuses reported, distinct, and what stays observable. -/
def Obligations.TerminalStatesTakeNoStepAndReportTheirStatus : Prop :=
  (∀ s : State, s.run = .halted → step s = .next s ∧ exitStatus s = some 0 ∧
    observe s = some (.halted s.x s.pc s.cc s.mem s.out)) ∧
  (∀ (s : State) (r : FaultRecord), s.run = .aborted r → step s = .fault (.aborted r s.out) ∧
    exitStatus s = some s.cfg.exitAbort ∧ observe s = some (.aborted r s.out)) ∧
  (∀ s : State, s.run = .stopped → step s = .next s ∧ exitStatus s = some s.cfg.exitStop ∧
    observe s = some (.stopped s.out)) ∧
  ∀ s t : State, legalConfig s.cfg → t.cfg = s.cfg → exitStatus s = exitStatus t →
    (s.run = .running ↔ t.run = .running) ∧ (s.run = .halted ↔ t.run = .halted) ∧
      (s.run = .stopped ↔ t.run = .stopped)

/-- R111, R117: the word at the current `pc`, then the increment modulo 65536. -/
def Obligations.FetchReadsAtPcThenIncrements : Prop :=
  ∀ s : State, (fetch s).ir = (memRead s.pc s).1 ∧ (fetch s).pc.toNat = (s.pc.toNat + 1) % 65536 ∧
    (fetch s).cc = s.cc ∧ (fetch s).run = s.run ∧ (fetch s).out = s.out ∧ (fetch s).cfg = s.cfg ∧
    (fetch s).env = (memRead s.pc s).2.env ∧ sameRegs [] s (fetch s) ∧
    sameCells [] (memRead s.pc s).2 (fetch s) ∧
    (s.pc ≠ s.cfg.kbsrAddr → sameCells [] s (fetch s) ∧ (fetch s).env = s.env)

/-- R70: a fetch from the status cell polls, and executes the status. -/
def Obligations.FetchFromTheStatusCellPolls : Prop :=
  ∀ s : State, s.cfg.kbsrAddr ≠ s.cfg.kbdrAddr → s.pc = s.cfg.kbsrAddr →
    ((inPoll s).1 = true → (fetch s).ir = 0x8000#16 ∧ decode (fetch s).ir = .rsv8) ∧
    ((inPoll s).1 = false → (fetch s).ir = 0x0000#16 ∧ exec (decode (fetch s).ir) (fetch s) = .next (fetch s))

/-- R69: the fetch that follows a store to its address reads the stored word. -/
def Obligations.NextFetchSeesTheStoredWord : Prop :=
  (∀ (sr : RegIdx) (off : BitVec 9) (s : State), s.pc ≠ s.cfg.kbsrAddr → pcRel9 off s = s.pc →
    ∃ t, exec (.st sr off) s = .next t ∧ (fetch t).ir = s.reg sr) ∧
  (∀ (sr : RegIdx) (off : BitVec 9) (s : State), s.pc ≠ s.cfg.kbsrAddr → (memRead (pcRel9 off s) s).1 = s.pc →
    ∃ t, exec (.sti sr off) s = .next t ∧ (fetch t).ir = s.reg sr) ∧
  ∀ (sr base : RegIdx) (off : BitVec 6) (s : State), s.pc ≠ s.cfg.kbsrAddr → baseOff6 base off s = s.pc →
    ∃ t, exec (.str sr base off) s = .next t ∧ (fetch t).ir = s.reg sr

/-! ## Memory, the keyboard and the loader -/

/-- R52, R55: a read of the status cell polls and rewrites the keyboard cells, every other read is plain. That the whole
status cell becomes 0x8000 or 0x0000 is D10, the spec's own decision. -/
def Obligations.MemReadFollowsItsContract : Prop :=
  (∀ (a : Word) (s : State), a ≠ s.cfg.kbsrAddr → memRead a s = (storeRead a s, s)) ∧
  (∀ s u : State, inPoll s = (false, u) → ∃ t, memRead s.cfg.kbsrAddr s = (0x0000#16, t) ∧
    storeRead s.cfg.kbsrAddr t = 0x0000#16 ∧ t.pc = s.pc ∧ t.cc = s.cc ∧ t.run = s.run ∧ t.out = s.out ∧
    t.env = u.env ∧ frame [] [s.cfg.kbsrAddr] s t) ∧
  ∀ (s u v : State) (c : InAnswer), s.cfg.kbsrAddr ≠ s.cfg.kbdrAddr → inPoll s = (true, u) → inRead u = (c, v) →
    ∃ t, memRead s.cfg.kbsrAddr s = (0x8000#16, t) ∧ storeRead s.cfg.kbsrAddr t = 0x8000#16 ∧
      (∀ b, c = .byte b → (storeRead s.cfg.kbdrAddr t).toNat = b.toNat) ∧
      (c = .eof → storeRead s.cfg.kbdrAddr t = s.cfg.eofValue) ∧
      t.pc = s.pc ∧ t.cc = s.cc ∧ t.run = s.run ∧ t.out = s.out ∧ t.env = v.env ∧
      frame [] [s.cfg.kbsrAddr, s.cfg.kbdrAddr] s t

/-- R53: a write stores the word in its one cell, at every address, and has no other effect; in the status cell the
word stays until that cell is next read. What that read replaces it with is R52's; that the whole cell becomes 0x8000 or
0x0000 is D10, the spec's own decision. -/
def Obligations.MemWriteIsAnUnconditionalStore : Prop :=
  (∀ (a v : Word) (s : State), storeRead a (memWrite a v s) = v ∧ (memWrite a v s).pc = s.pc ∧
    (memWrite a v s).cc = s.cc ∧ quietFrame [] [a] s (memWrite a v s)) ∧
  (∀ (b v : Word) (s : State), b ≠ s.cfg.kbsrAddr →
    storeRead s.cfg.kbsrAddr (memRead b (memWrite s.cfg.kbsrAddr v s)).2 = v) ∧
  ∀ (v : Word) (s : State), s.cfg.kbsrAddr ≠ s.cfg.kbdrAddr →
    storeRead s.cfg.kbsrAddr (memRead s.cfg.kbsrAddr (memWrite s.cfg.kbsrAddr v s)).2 =
      if (inPoll s).1 then 0x8000#16 else 0x0000#16

/-- Two canonical memories that read alike are the same list (log entry 8). -/
def Obligations.CanonicalMemoriesThatReadAlikeAreEqual : Prop :=
  ∀ m n : Memory, m.wf → n.wf → (∀ a < memWords, readCell a m = readCell a n) → m = n

/-- R223, R224, R227 to R229: an image's words, big-endian, go to consecutive cells from its origin, those past 0xFFFF
are dropped, an odd last byte is ignored, and nothing else changes. -/
def Obligations.ImageWordsAreLoadedFromTheOrigin : Prop :=
  ∀ (origin : Word) (content : List Word) (odd : List Byte) (s : State), odd.length ≤ 1 →
    ∃ t, loadImage (wordBytes origin ++ content.flatMap wordBytes ++ odd) s = some t ∧
      (∀ k (h : k < content.length), origin.toNat + k < 65536 →
        storeRead (BitVec.ofNat 16 (origin.toNat + k)) t = content[k]) ∧
      (∀ a : Word, a.toNat < origin.toNat ∨ origin.toNat + content.length ≤ a.toNat →
        storeRead a t = storeRead a s) ∧
      t.x = s.x ∧ t.pc = s.pc ∧ t.cc = s.cc ∧ t.run = s.run ∧ t.out = s.out ∧ t.ir = s.ir ∧ t.cfg = s.cfg ∧
      t.env = s.env

/-- R222, R225, R226: the images are loaded in order on the reset state, and the run starts at 0x3000; without an
image, or at a missing file or one under two bytes, the boot fails. -/
def Obligations.BootLoadsTheImagesInOrder : Prop :=
  (∀ (cfg : Config) (env : Env), boot cfg env [] = .error .noImages) ∧
  (∀ (cfg : Config) (env : Env) (good : List (List Byte)) (rest : List (Option (List Byte))),
    (∀ b ∈ good, 2 ≤ b.length) →
    boot cfg env (good.map some ++ none :: rest) = .error (.unreadable good.length)) ∧
  (∀ (cfg : Config) (env : Env) (good : List (List Byte)) (bad : List Byte) (rest : List (Option (List Byte))),
    (∀ b ∈ good, 2 ≤ b.length) → bad.length < 2 →
    boot cfg env (good.map some ++ some bad :: rest) = .error (.tooShort good.length)) ∧
  ∀ (cfg : Config) (env : Env) (good : List (List Byte)), good ≠ [] → (∀ b ∈ good, 2 ≤ b.length) →
    ∃ t, boot cfg env (good.map some) = .ok t ∧
      good.foldlM (fun s b => loadImage b s) { State.reset with cfg := cfg, env := env } = some t ∧
      t.pc = 0x3000#16 ∧ t.run = .running

/-! ## The whole machine -/

/-- R22: an instruction writes no register outside its row of the table. -/
def Obligations.OnlyTheTablesRegistersAreWritten : Prop :=
  ∀ (i : Instr) (s t : State), exec i s = .next t → ∀ r, r ∉ regWrites i → t.reg r = s.reg r

/-- R27: a register-defining instruction that completes leaves `cc` at the flag of the value it wrote. -/
def Obligations.DefiningInstructionsSetCcFromTheirResult : Prop :=
  ∀ (i : Instr) (r : RegIdx) (s t : State), definedReg i = some r →
    (readsInput i = true → (inWait s).1 = .answered) → exec i s = .next t → ccMatches t.cc (t.reg r)

/-- R28: no other instruction writes `cc`, and only BR reads it: run with another `cc`, an instruction ends in the
same state but for `cc`. -/
def Obligations.OnlyDefinersWriteCcAndOnlyBrReadsIt : Prop :=
  (∀ (i : Instr) (s t : State), definedReg i = none → exec i s = .next t → t.cc = s.cc) ∧
  ∀ (i : Instr) (s t : State) (c : CC), (∀ nzp off, i ≠ .br nzp off) → exec i s = .next t →
    ∃ u, exec i { s with cc := c } = .next u ∧ { u with cc := t.cc } = t

/-- R25: execution changes `pc` in BR, JMP, JSR and JSRR alone. -/
def Obligations.OnlyControlTransfersWritePc : Prop :=
  ∀ (i : Instr) (s t : State), writesPc i = false → exec i s = .next t → t.pc = s.pc

/-- R53, R57, R61: a cell changes by a store to it or, a keyboard cell, by a poll of a reading instruction. -/
def Obligations.OnlyStoresAndPollsChangeMemory : Prop :=
  ∀ (i : Instr) (s t : State) (a : Word), exec i s = .next t → a ∉ storedCells i s →
    (readsMemory i = true → a ≠ s.cfg.kbsrAddr ∧ a ≠ s.cfg.kbdrAddr) → storeRead a t = storeRead a s

/-- R57, R211: output is only ever appended, and only by the TRAP routines that emit. -/
def Obligations.OnlyTrapRoutinesAppendOutput : Prop :=
  (∀ (i : Instr) (s t : State), exec i s = .next t →
    ∃ bs, t.out = s.out ++ bs ∧ (emitsOutput i = false → bs = [])) ∧
  ∀ s t : State, step s = .next t → ∃ bs, t.out = s.out ++ bs

/-- R31, R202, R208: what can change the run state, and how. -/
def Obligations.OnlyHaltStopOrAFaultEndsTheRun : Prop :=
  ∀ (i : Instr) (s t : State), exec i s = .next t → t.run = s.run ∨ (i = .trapHalt ∧ t.run = .halted) ∨
    (readsInput i = true ∧ (inWait s).1 = .stopRequested ∧ t.run = .stopped) ∨
    ((i = .rsv8 ∨ i = .rsv13) ∧ ∃ op, t.run = .aborted (.reservedOpcode op s.ir (wrap (s.pc.toNat - 1)))) ∨
    ∃ v, i = .trapOther v ∧ s.cfg.unknownTrap = .abort ∧
      t.run = .aborted (.unknownTrap v s.ir (wrap (s.pc.toNat - 1)))

/-- R88, R118, U14, U15: every instruction has a meaning; where it answers no next state, a read is never answered
(log entry 6) or a string never ends: no word but a keyboard cell's is zero, every poll finds
input and no scripted character is a zero word (log entry 10). -/
def Obligations.EveryInstructionRunsOrHangs : Prop :=
  ∀ (i : Instr) (s : State), (∃ t, exec i s = .next t) ∨
    (readsInput i = true ∧ (inWait s).1 = .neverAnswered ∧ exec i s = .fault .blockedOnInput) ∨
    ((i = .trapPuts ∨ i = .trapPutsp) ∧ stringHangs s ∧ exec i s = .fault .stringNeverEnds)

/-- R8 (log entry 1), R32: no instruction changes a parameter or `ir`, and no step changes a parameter. -/
def Obligations.ParametersNeverChange : Prop :=
  (∀ (i : Instr) (s t : State), exec i s = .next t → t.cfg = s.cfg ∧ t.ir = s.ir) ∧
  ∀ s t : State, step s = .next t → t.cfg = s.cfg

/-- R32: `ir` is not visible: but in a fault's record, no result depends on it. -/
def Obligations.InstructionRegisterIsInvisible : Prop :=
  ∀ (i : Instr) (s t : State) (v : Word), i ≠ .rsv8 → i ≠ .rsv13 → (∀ k, i ≠ .trapOther k) →
    exec i s = .next t → exec i { s with ir := v } = .next { t with ir := v }

/-- R33: the environment is observed through the status cell's read, GETC and IN only. -/
def Obligations.OtherInstructionsDoNotObserveTheEnvironment : Prop :=
  ∀ (i : Instr) (s t : State) (e : Env), readsMemory i = false → readsInput i = false →
    exec i s = .next t → exec i { s with env := e } = .next { t with env := e }

/-- R120: the decoder's fields are the word's bits, and its control signals say what the decoded instruction does
(log entry 12). -/
def Obligations.SignalsDescribeTheDecodedInstruction : Prop :=
  ∀ w : Word,
    ((signals w).op.toNat = w.toNat / 4096 ∧ (signals w).dr = w.extractLsb' 9 3 ∧ (signals w).sr1 = w.extractLsb' 6 3 ∧
      (signals w).sr2 = w.extractLsb' 0 3 ∧ (signals w).nzp = w.extractLsb' 9 3 ∧
      ((signals w).immFlag = 1#1 ↔ w.getLsbD 5 = true) ∧ ((signals w).longFlag = 1#1 ↔ w.getLsbD 11 = true) ∧
      (signals w).trapvect.toNat = w.toNat % 256) ∧
    ((signals w).imm16 = wrap (w.extractLsb' 0 5).toInt ∧ (signals w).off6 = wrap (w.extractLsb' 0 6).toInt ∧
      (signals w).off9 = wrap (w.extractLsb' 0 9).toInt ∧ (signals w).off11 = wrap (w.extractLsb' 0 11).toInt) ∧
    (signals w).regWrite = !(regWrites (decode w)).isEmpty ∧
    (signals w).ccWrite = (definedReg (decode w)).isSome ∧
    (signals w).memRead = readsMemory (decode w) ∧
    ((signals w).memWrite = true ↔ ∀ s : State, storedCells (decode w) s ≠ []) ∧
    (signals w).indirect = usesPointer (decode w) ∧
    (signals w).pcSrc = pcSource (decode w) ∧ ((signals w).pcSrc ≠ .seq ↔ writesPc (decode w) = true) ∧
    ((signals w).reserved = true ↔ decode w = .rsv8 ∨ decode w = .rsv13)
end

