-- ==== Sys2Proof/Laws/Encoding.lean ====
section
/-! SUPPORT. Fields of a concatenation, and the opcode of an encoded word. -/

namespace Sys2Proof

/-- The field of a word under a mask is the field under the mask's field. -/
theorem extractLsb'_and_eq {w m v : Word} (h : w &&& m = v) (start len : Nat) :
    w.extractLsb' start len &&& m.extractLsb' start len = v.extractLsb' start len := by
  rw [← h]
  ext i hi
  simp

/-- The opcode of an encoded instruction is its own (R84). -/
theorem opOf_encode (i : Instr) : opOf (encode i) = opcode i := by
  unfold opOf encode
  exact BitVec.extractLsb'_append_eq_left

/-- A field below the opcode is a field of the operand bits. -/
theorem extractLsb'_encode (i : Instr) {start len : Nat} (h : start + len ≤ 12) :
    (encode i).extractLsb' start len = (operandBits i).extractLsb' start len := by
  unfold encode
  ext k hk
  have hlt : start + k < 12 := by omega
  have hb : (opcode i ++ operandBits i).getLsbD (start + k) = (operandBits i).getLsbD (start + k) := by
    rw [BitVec.getLsbD_append, if_pos hlt]
  simpa using hb

/-! The decoder by opcode: the sixteen cases, and what each decodes to (R84, R88). -/

theorem opOf_cases (w : Word) :
    opOf w = 0x0#4 ∨ opOf w = 0x1#4 ∨ opOf w = 0x2#4 ∨ opOf w = 0x3#4 ∨
    opOf w = 0x4#4 ∨ opOf w = 0x5#4 ∨ opOf w = 0x6#4 ∨ opOf w = 0x7#4 ∨
    opOf w = 0x8#4 ∨ opOf w = 0x9#4 ∨ opOf w = 0xA#4 ∨ opOf w = 0xB#4 ∨
    opOf w = 0xC#4 ∨ opOf w = 0xD#4 ∨ opOf w = 0xE#4 ∨ opOf w = 0xF#4 := by
  generalize opOf w = op
  revert op
  decide

theorem decode_op0 {w : Word} (h : opOf w = 0x0#4) :
    decode w = .br (nzpOf w) (off9Of w) := by
  rw [decode, h]; rfl

theorem decode_op1 {w : Word} (h : opOf w = 0x1#4) :
    decode w = if immFlagOf w = 1#1 then .addImm (drOf w) (sr1Of w) (imm5Of w) else .addReg (drOf w) (sr1Of w) (sr2Of w) := by
  rw [decode, h]; rfl

theorem decode_op2 {w : Word} (h : opOf w = 0x2#4) :
    decode w = .ld (drOf w) (off9Of w) := by
  rw [decode, h]; rfl

theorem decode_op3 {w : Word} (h : opOf w = 0x3#4) :
    decode w = .st (drOf w) (off9Of w) := by
  rw [decode, h]; rfl

theorem decode_op4 {w : Word} (h : opOf w = 0x4#4) :
    decode w = if longFlagOf w = 1#1 then .jsr (off11Of w) else .jsrr (sr1Of w) := by
  rw [decode, h]; rfl

theorem decode_op5 {w : Word} (h : opOf w = 0x5#4) :
    decode w = if immFlagOf w = 1#1 then .andImm (drOf w) (sr1Of w) (imm5Of w) else .andReg (drOf w) (sr1Of w) (sr2Of w) := by
  rw [decode, h]; rfl

theorem decode_op6 {w : Word} (h : opOf w = 0x6#4) :
    decode w = .ldr (drOf w) (sr1Of w) (off6Of w) := by
  rw [decode, h]; rfl

theorem decode_op7 {w : Word} (h : opOf w = 0x7#4) :
    decode w = .str (drOf w) (sr1Of w) (off6Of w) := by
  rw [decode, h]; rfl

theorem decode_op8 {w : Word} (h : opOf w = 0x8#4) :
    decode w = .rsv8 := by
  rw [decode, h]; rfl

theorem decode_op9 {w : Word} (h : opOf w = 0x9#4) :
    decode w = .not (drOf w) (sr1Of w) := by
  rw [decode, h]; rfl

theorem decode_opA {w : Word} (h : opOf w = 0xA#4) :
    decode w = .ldi (drOf w) (off9Of w) := by
  rw [decode, h]; rfl

theorem decode_opB {w : Word} (h : opOf w = 0xB#4) :
    decode w = .sti (drOf w) (off9Of w) := by
  rw [decode, h]; rfl

theorem decode_opC {w : Word} (h : opOf w = 0xC#4) :
    decode w = .jmp (sr1Of w) := by
  rw [decode, h]; rfl

theorem decode_opD {w : Word} (h : opOf w = 0xD#4) :
    decode w = .rsv13 := by
  rw [decode, h]; rfl

theorem decode_opE {w : Word} (h : opOf w = 0xE#4) :
    decode w = .lea (drOf w) (off9Of w) := by
  rw [decode, h]; rfl

theorem decode_opF {w : Word} (h : opOf w = 0xF#4) :
    decode w = decodeTrap (trapvectOf w) := by
  rw [decode, h]; rfl

/-- The middle field of three is found above the last. -/
theorem extractLsb'_append_mid {n m k : Nat} (a : BitVec n) (b : BitVec m) (c : BitVec k) :
    (a ++ b ++ c).extractLsb' k m = b := by
  ext i hi
  have h : (a ++ b ++ c).getLsbD (k + i) = b.getLsbD i := by
    rw [BitVec.getLsbD_append, if_neg (by omega), BitVec.getLsbD_append, if_pos (by omega)]
    congr 1
    omega
  rw [BitVec.getElem_extractLsb', h, BitVec.getLsbD_eq_getElem hi]

end Sys2Proof
end

