-- ==== Sys2Proof/Laws/State.lean ====
section
/-! SUPPORT. One lemma per field per update, so that no later proof unfolds a record update. -/

namespace Sys2Proof.Machine

/-! `setReg` -/

@[simp] theorem setReg_pc (s : State) (r : RegIdx) (v : Word) : (s.setReg r v).pc = s.pc := rfl
@[simp] theorem setReg_cc (s : State) (r : RegIdx) (v : Word) : (s.setReg r v).cc = s.cc := rfl
@[simp] theorem setReg_mem (s : State) (r : RegIdx) (v : Word) : (s.setReg r v).mem = s.mem := rfl
@[simp] theorem setReg_run (s : State) (r : RegIdx) (v : Word) : (s.setReg r v).run = s.run := rfl
@[simp] theorem setReg_out (s : State) (r : RegIdx) (v : Word) : (s.setReg r v).out = s.out := rfl
@[simp] theorem setReg_ir (s : State) (r : RegIdx) (v : Word) : (s.setReg r v).ir = s.ir := rfl
@[simp] theorem setReg_cfg (s : State) (r : RegIdx) (v : Word) : (s.setReg r v).cfg = s.cfg := rfl
@[simp] theorem setReg_env (s : State) (r : RegIdx) (v : Word) : (s.setReg r v).env = s.env := rfl

/-! `setPc` -/

@[simp] theorem setPc_x (s : State) (v : Word) : (s.setPc v).x = s.x := rfl
@[simp] theorem setPc_pc (s : State) (v : Word) : (s.setPc v).pc = v := rfl
@[simp] theorem setPc_cc (s : State) (v : Word) : (s.setPc v).cc = s.cc := rfl
@[simp] theorem setPc_mem (s : State) (v : Word) : (s.setPc v).mem = s.mem := rfl
@[simp] theorem setPc_run (s : State) (v : Word) : (s.setPc v).run = s.run := rfl
@[simp] theorem setPc_out (s : State) (v : Word) : (s.setPc v).out = s.out := rfl
@[simp] theorem setPc_ir (s : State) (v : Word) : (s.setPc v).ir = s.ir := rfl
@[simp] theorem setPc_cfg (s : State) (v : Word) : (s.setPc v).cfg = s.cfg := rfl
@[simp] theorem setPc_env (s : State) (v : Word) : (s.setPc v).env = s.env := rfl

/-! `setcc` -/

@[simp] theorem setcc_x (s : State) (v : Word) : (setcc v s).x = s.x := rfl
@[simp] theorem setcc_pc (s : State) (v : Word) : (setcc v s).pc = s.pc := rfl
@[simp] theorem setcc_cc (s : State) (v : Word) : (setcc v s).cc = ccOf v := rfl
@[simp] theorem setcc_mem (s : State) (v : Word) : (setcc v s).mem = s.mem := rfl
@[simp] theorem setcc_run (s : State) (v : Word) : (setcc v s).run = s.run := rfl
@[simp] theorem setcc_out (s : State) (v : Word) : (setcc v s).out = s.out := rfl
@[simp] theorem setcc_ir (s : State) (v : Word) : (setcc v s).ir = s.ir := rfl
@[simp] theorem setcc_cfg (s : State) (v : Word) : (setcc v s).cfg = s.cfg := rfl
@[simp] theorem setcc_env (s : State) (v : Word) : (setcc v s).env = s.env := rfl

/-! `memWrite` -/

@[simp] theorem memWrite_x (s : State) (a v : Word) : (memWrite a v s).x = s.x := rfl
@[simp] theorem memWrite_pc (s : State) (a v : Word) : (memWrite a v s).pc = s.pc := rfl
@[simp] theorem memWrite_cc (s : State) (a v : Word) : (memWrite a v s).cc = s.cc := rfl
@[simp] theorem memWrite_mem (s : State) (a v : Word) : (memWrite a v s).mem = writeCell a.toNat v s.mem := rfl
@[simp] theorem memWrite_run (s : State) (a v : Word) : (memWrite a v s).run = s.run := rfl
@[simp] theorem memWrite_out (s : State) (a v : Word) : (memWrite a v s).out = s.out := rfl
@[simp] theorem memWrite_ir (s : State) (a v : Word) : (memWrite a v s).ir = s.ir := rfl
@[simp] theorem memWrite_cfg (s : State) (a v : Word) : (memWrite a v s).cfg = s.cfg := rfl
@[simp] theorem memWrite_env (s : State) (a v : Word) : (memWrite a v s).env = s.env := rfl

/-! `busWrite` -/

@[simp] theorem busWrite_x (s : State) (a v : Word) : (busWrite a v s).x = s.x := rfl
@[simp] theorem busWrite_pc (s : State) (a v : Word) : (busWrite a v s).pc = s.pc := rfl
@[simp] theorem busWrite_cc (s : State) (a v : Word) : (busWrite a v s).cc = s.cc := rfl
@[simp] theorem busWrite_mem (s : State) (a v : Word) : (busWrite a v s).mem = writeCell a.toNat v s.mem := rfl
@[simp] theorem busWrite_run (s : State) (a v : Word) : (busWrite a v s).run = s.run := rfl
@[simp] theorem busWrite_out (s : State) (a v : Word) : (busWrite a v s).out = s.out := rfl
@[simp] theorem busWrite_ir (s : State) (a v : Word) : (busWrite a v s).ir = s.ir := rfl
@[simp] theorem busWrite_cfg (s : State) (a v : Word) : (busWrite a v s).cfg = s.cfg := rfl
@[simp] theorem busWrite_env (s : State) (a v : Word) : (busWrite a v s).env = s.env := rfl

/-! `outBytes` -/

@[simp] theorem outBytes_x (s : State) (bs : List Byte) : (outBytes bs s).x = s.x := rfl
@[simp] theorem outBytes_pc (s : State) (bs : List Byte) : (outBytes bs s).pc = s.pc := rfl
@[simp] theorem outBytes_cc (s : State) (bs : List Byte) : (outBytes bs s).cc = s.cc := rfl
@[simp] theorem outBytes_mem (s : State) (bs : List Byte) : (outBytes bs s).mem = s.mem := rfl
@[simp] theorem outBytes_run (s : State) (bs : List Byte) : (outBytes bs s).run = s.run := rfl
@[simp] theorem outBytes_out (s : State) (bs : List Byte) : (outBytes bs s).out = s.out ++ bs := rfl
@[simp] theorem outBytes_ir (s : State) (bs : List Byte) : (outBytes bs s).ir = s.ir := rfl
@[simp] theorem outBytes_cfg (s : State) (bs : List Byte) : (outBytes bs s).cfg = s.cfg := rfl
@[simp] theorem outBytes_env (s : State) (bs : List Byte) : (outBytes bs s).env = s.env := rfl

/-! `supplyPolls` -/

@[simp] theorem supplyPolls_x (s : State) (ps : List Bool) : (supplyPolls ps s).x = s.x := rfl
@[simp] theorem supplyPolls_pc (s : State) (ps : List Bool) : (supplyPolls ps s).pc = s.pc := rfl
@[simp] theorem supplyPolls_cc (s : State) (ps : List Bool) : (supplyPolls ps s).cc = s.cc := rfl
@[simp] theorem supplyPolls_mem (s : State) (ps : List Bool) : (supplyPolls ps s).mem = s.mem := rfl
@[simp] theorem supplyPolls_run (s : State) (ps : List Bool) : (supplyPolls ps s).run = s.run := rfl
@[simp] theorem supplyPolls_out (s : State) (ps : List Bool) : (supplyPolls ps s).out = s.out := rfl
@[simp] theorem supplyPolls_ir (s : State) (ps : List Bool) : (supplyPolls ps s).ir = s.ir := rfl
@[simp] theorem supplyPolls_cfg (s : State) (ps : List Bool) : (supplyPolls ps s).cfg = s.cfg := rfl
@[simp] theorem supplyPolls_reg (s : State) (ps : List Bool) (r : RegIdx) : (supplyPolls ps s).reg r = s.reg r := rfl
@[simp] theorem supplyPolls_env_polls (s : State) (ps : List Bool) :
    (supplyPolls ps s).env.polls = s.env.polls ++ ps := rfl
@[simp] theorem supplyPolls_env_reads (s : State) (ps : List Bool) :
    (supplyPolls ps s).env.reads = s.env.reads := rfl

/-! `dropPolls` -/

@[simp] theorem dropPolls_x (s : State) : (dropPolls s).x = s.x := rfl
@[simp] theorem dropPolls_pc (s : State) : (dropPolls s).pc = s.pc := rfl
@[simp] theorem dropPolls_cc (s : State) : (dropPolls s).cc = s.cc := rfl
@[simp] theorem dropPolls_mem (s : State) : (dropPolls s).mem = s.mem := rfl
@[simp] theorem dropPolls_run (s : State) : (dropPolls s).run = s.run := rfl
@[simp] theorem dropPolls_out (s : State) : (dropPolls s).out = s.out := rfl
@[simp] theorem dropPolls_ir (s : State) : (dropPolls s).ir = s.ir := rfl
@[simp] theorem dropPolls_cfg (s : State) : (dropPolls s).cfg = s.cfg := rfl
@[simp] theorem dropPolls_reg (s : State) (r : RegIdx) : (dropPolls s).reg r = s.reg r := rfl
@[simp] theorem dropPolls_env_reads (s : State) : (dropPolls s).env.reads = s.env.reads := rfl
@[simp] theorem dropPolls_env_polls (s : State) : (dropPolls s).env.polls = [] := rfl

/-! `outFlush` -/

@[simp] theorem outFlush_x (s : State) : (outFlush s).x = s.x := rfl
@[simp] theorem outFlush_pc (s : State) : (outFlush s).pc = s.pc := rfl
@[simp] theorem outFlush_cc (s : State) : (outFlush s).cc = s.cc := rfl
@[simp] theorem outFlush_mem (s : State) : (outFlush s).mem = s.mem := rfl
@[simp] theorem outFlush_run (s : State) : (outFlush s).run = s.run := rfl
@[simp] theorem outFlush_out (s : State) : (outFlush s).out = s.out := rfl
@[simp] theorem outFlush_ir (s : State) : (outFlush s).ir = s.ir := rfl
@[simp] theorem outFlush_cfg (s : State) : (outFlush s).cfg = s.cfg := rfl
@[simp] theorem outFlush_env (s : State) : (outFlush s).env = s.env := rfl

/-! `halt` -/

@[simp] theorem halt_x (s : State) : (halt s).x = s.x := rfl
@[simp] theorem halt_pc (s : State) : (halt s).pc = s.pc := rfl
@[simp] theorem halt_cc (s : State) : (halt s).cc = s.cc := rfl
@[simp] theorem halt_mem (s : State) : (halt s).mem = s.mem := rfl
@[simp] theorem halt_run (s : State) : (halt s).run = .halted := rfl
@[simp] theorem halt_out (s : State) : (halt s).out = s.out := rfl
@[simp] theorem halt_ir (s : State) : (halt s).ir = s.ir := rfl
@[simp] theorem halt_cfg (s : State) : (halt s).cfg = s.cfg := rfl
@[simp] theorem halt_env (s : State) : (halt s).env = s.env := rfl

/-! `stopRun` -/

@[simp] theorem stopRun_x (s : State) : (stopRun s).x = s.x := rfl
@[simp] theorem stopRun_pc (s : State) : (stopRun s).pc = s.pc := rfl
@[simp] theorem stopRun_cc (s : State) : (stopRun s).cc = s.cc := rfl
@[simp] theorem stopRun_mem (s : State) : (stopRun s).mem = s.mem := rfl
@[simp] theorem stopRun_run (s : State) : (stopRun s).run = .stopped := rfl
@[simp] theorem stopRun_out (s : State) : (stopRun s).out = s.out := rfl
@[simp] theorem stopRun_ir (s : State) : (stopRun s).ir = s.ir := rfl
@[simp] theorem stopRun_cfg (s : State) : (stopRun s).cfg = s.cfg := rfl
@[simp] theorem stopRun_env (s : State) : (stopRun s).env = s.env := rfl

/-! `raiseFault` -/

@[simp] theorem raiseFault_x (s : State) (r : FaultRecord) : (raiseFault r s).x = s.x := rfl
@[simp] theorem raiseFault_pc (s : State) (r : FaultRecord) : (raiseFault r s).pc = s.pc := rfl
@[simp] theorem raiseFault_cc (s : State) (r : FaultRecord) : (raiseFault r s).cc = s.cc := rfl
@[simp] theorem raiseFault_mem (s : State) (r : FaultRecord) : (raiseFault r s).mem = s.mem := rfl
@[simp] theorem raiseFault_run (s : State) (r : FaultRecord) : (raiseFault r s).run = .aborted r := rfl
@[simp] theorem raiseFault_out (s : State) (r : FaultRecord) : (raiseFault r s).out = s.out := rfl
@[simp] theorem raiseFault_ir (s : State) (r : FaultRecord) : (raiseFault r s).ir = s.ir := rfl
@[simp] theorem raiseFault_cfg (s : State) (r : FaultRecord) : (raiseFault r s).cfg = s.cfg := rfl
@[simp] theorem raiseFault_env (s : State) (r : FaultRecord) : (raiseFault r s).env = s.env := rfl

/-! `saveReturn` -/

@[simp] theorem saveReturn_pc (s : State) : (saveReturn s).pc = s.pc := rfl
@[simp] theorem saveReturn_cc (s : State) : (saveReturn s).cc = s.cc := rfl
@[simp] theorem saveReturn_mem (s : State) : (saveReturn s).mem = s.mem := rfl
@[simp] theorem saveReturn_run (s : State) : (saveReturn s).run = s.run := rfl
@[simp] theorem saveReturn_out (s : State) : (saveReturn s).out = s.out := rfl
@[simp] theorem saveReturn_ir (s : State) : (saveReturn s).ir = s.ir := rfl
@[simp] theorem saveReturn_cfg (s : State) : (saveReturn s).cfg = s.cfg := rfl
@[simp] theorem saveReturn_env (s : State) : (saveReturn s).env = s.env := rfl

/-! `jumpToReg` -/

@[simp] theorem jumpToReg_x (s : State) (r : RegIdx) : (jumpToReg r s).x = s.x := rfl
@[simp] theorem jumpToReg_pc (s : State) (r : RegIdx) : (jumpToReg r s).pc = s.reg r := rfl
@[simp] theorem jumpToReg_cc (s : State) (r : RegIdx) : (jumpToReg r s).cc = s.cc := rfl
@[simp] theorem jumpToReg_mem (s : State) (r : RegIdx) : (jumpToReg r s).mem = s.mem := rfl
@[simp] theorem jumpToReg_run (s : State) (r : RegIdx) : (jumpToReg r s).run = s.run := rfl
@[simp] theorem jumpToReg_out (s : State) (r : RegIdx) : (jumpToReg r s).out = s.out := rfl
@[simp] theorem jumpToReg_ir (s : State) (r : RegIdx) : (jumpToReg r s).ir = s.ir := rfl
@[simp] theorem jumpToReg_cfg (s : State) (r : RegIdx) : (jumpToReg r s).cfg = s.cfg := rfl
@[simp] theorem jumpToReg_env (s : State) (r : RegIdx) : (jumpToReg r s).env = s.env := rfl

/-! `writeDest` -/

@[simp] theorem writeDest_pc (s : State) (r : RegIdx) (v : Word) : (writeDest r v s).pc = s.pc := rfl
@[simp] theorem writeDest_cc (s : State) (r : RegIdx) (v : Word) : (writeDest r v s).cc = ccOf v := rfl
@[simp] theorem writeDest_mem (s : State) (r : RegIdx) (v : Word) : (writeDest r v s).mem = s.mem := rfl
@[simp] theorem writeDest_run (s : State) (r : RegIdx) (v : Word) : (writeDest r v s).run = s.run := rfl
@[simp] theorem writeDest_out (s : State) (r : RegIdx) (v : Word) : (writeDest r v s).out = s.out := rfl
@[simp] theorem writeDest_ir (s : State) (r : RegIdx) (v : Word) : (writeDest r v s).ir = s.ir := rfl
@[simp] theorem writeDest_cfg (s : State) (r : RegIdx) (v : Word) : (writeDest r v s).cfg = s.cfg := rfl
@[simp] theorem writeDest_env (s : State) (r : RegIdx) (v : Word) : (writeDest r v s).env = s.env := rfl

end Sys2Proof.Machine
end

