-- ==== Sys2Proof/Laws/Registers.lean ====
section
/-! SUPPORT. The register file: a read after a write, and the registers under every other named operation. -/

namespace Sys2Proof.Machine

theorem reg_setReg (s : State) (r q : RegIdx) (v : Word) :
    (s.setReg r v).reg q = if q = r then v else s.reg q := by
  unfold State.reg State.setReg
  simp only [Vector.getElem_set]
  by_cases h : q = r
  · simp [h]
  · have : r.toNat ≠ q.toNat := fun e => h (BitVec.eq_of_toNat_eq e.symm)
    simp [h, this]

@[simp] theorem reg_setReg_same (s : State) (r : RegIdx) (v : Word) : (s.setReg r v).reg r = v := by
  simp [reg_setReg]

theorem reg_setReg_other {q r : RegIdx} (h : q ≠ r) (s : State) (v : Word) : (s.setReg r v).reg q = s.reg q := by
  simp [reg_setReg, h]

/-- Registers are read from `x` alone. -/
theorem reg_congr {s t : State} (h : t.x = s.x) (r : RegIdx) : t.reg r = s.reg r := by
  simp only [State.reg, h]

@[simp] theorem reg_setPc (s : State) (v : Word) (r : RegIdx) : (s.setPc v).reg r = s.reg r := rfl
@[simp] theorem reg_setcc (s : State) (v : Word) (r : RegIdx) : (setcc v s).reg r = s.reg r := rfl
@[simp] theorem reg_memWrite (s : State) (a v : Word) (r : RegIdx) : (memWrite a v s).reg r = s.reg r := rfl
@[simp] theorem reg_busWrite (s : State) (a v : Word) (r : RegIdx) : (busWrite a v s).reg r = s.reg r := rfl
@[simp] theorem reg_outBytes (s : State) (bs : List Byte) (r : RegIdx) : (outBytes bs s).reg r = s.reg r := rfl
@[simp] theorem reg_outFlush (s : State) (r : RegIdx) : (outFlush s).reg r = s.reg r := rfl
@[simp] theorem reg_halt (s : State) (r : RegIdx) : (halt s).reg r = s.reg r := rfl
@[simp] theorem reg_stopRun (s : State) (r : RegIdx) : (stopRun s).reg r = s.reg r := rfl
@[simp] theorem reg_raiseFault (s : State) (f : FaultRecord) (r : RegIdx) : (raiseFault f s).reg r = s.reg r := rfl
@[simp] theorem reg_jumpToReg (s : State) (b r : RegIdx) : (jumpToReg b s).reg r = s.reg r := rfl

theorem reg_writeDest (s : State) (r q : RegIdx) (v : Word) :
    (writeDest r v s).reg q = if q = r then v else s.reg q := by
  simp [writeDest, reg_setReg]

theorem reg_saveReturn (s : State) (q : RegIdx) :
    (saveReturn s).reg q = if q = 7#3 then s.pc else s.reg q := by
  simp [saveReturn, reg_setReg]

end Sys2Proof.Machine
end

