-- ==== Sys2Proof/Laws/Memory.lean ====
section
/-! SUPPORT. Memory: a read after a write, the canonical form kept by every operation, and equal reads mean equal
memories; the keyboard device's reads. -/

namespace Sys2Proof.Machine

theorem readCell_eraseCell (a b : Nat) (m : Memory) :
    readCell b (eraseCell a m) = if b = a then 0x0000#16 else readCell b m := by
  induction m with
  | nil => simp [eraseCell, readCell]
  | cons c m ih =>
    by_cases hc : c.1 = a
    · have he : eraseCell a (c :: m) = eraseCell a m := by simp [eraseCell, hc]
      rw [he, ih]
      by_cases hb : b = a
      · simp [hb]
      · have hne : c.1 ≠ b := fun e => hb (e.symm.trans hc)
        simp [readCell, hb, hne]
    · have he : eraseCell a (c :: m) = c :: eraseCell a m := by simp [eraseCell, hc]
      rw [he, readCell, readCell, ih]
      by_cases hb : c.1 = b
      · have hne : b ≠ a := fun e => hc (hb.trans e)
        simp [hb, hne]
      · simp [hb]

theorem readCell_insertCell (a b : Nat) (v : Word) (m : Memory) (h : ∀ c ∈ m, c.1 ≠ a) :
    readCell b (insertCell a v m) = if b = a then v else readCell b m := by
  induction m with
  | nil =>
    by_cases hb : b = a
    · simp [insertCell, readCell, hb]
    · simp [insertCell, readCell, hb, Ne.symm hb]
  | cons c m ih =>
    have hc : c.1 ≠ a := h c (by simp)
    have hm : ∀ d ∈ m, d.1 ≠ a := fun d hd => h d (by simp [hd])
    by_cases hlt : a < c.1
    · by_cases hb : b = a
      · simp [insertCell, readCell, hlt, hb]
      · simp [insertCell, readCell, hlt, hb, Ne.symm hb]
    · simp only [insertCell, hlt, if_false, readCell, ih hm]
      by_cases hb : c.1 = b
      · have hne : b ≠ a := fun e => hc (hb.trans e)
        simp [hb, hne]
      · simp [hb]

theorem readCell_writeCell (a b : Nat) (v : Word) (m : Memory) :
    readCell b (writeCell a v m) = if b = a then v else readCell b m := by
  unfold writeCell
  split
  · next h => rw [readCell_eraseCell, h]
  · rw [readCell_insertCell _ _ _ _ (by intro c hc; simpa [eraseCell] using (List.mem_filter.mp hc).2),
      readCell_eraseCell]
    split <;> rfl

theorem eraseCell_wf {a : Nat} {m : Memory} (h : Memory.wf m) : Memory.wf (eraseCell a m) :=
  ⟨h.1.filter _, fun c hc => h.2 c (List.mem_filter.mp hc).1⟩

theorem mem_insertCell {a : Nat} {v : Word} {m : Memory} {c : Nat × Word} (h : c ∈ insertCell a v m) :
    c = (a, v) ∨ c ∈ m := by
  induction m with
  | nil => simpa [insertCell] using h
  | cons d m ih =>
    by_cases hlt : a < d.1
    · simpa [insertCell, hlt] using h
    · rcases (by simpa [insertCell, hlt] using h : c = d ∨ c ∈ insertCell a v m) with rfl | h'
      · simp
      · rcases ih h' with rfl | hm <;> simp_all

theorem insertCell_pairwise {a : Nat} {v : Word} {m : Memory} (h : m.Pairwise (fun c d => c.1 < d.1))
    (ha : ∀ c ∈ m, c.1 ≠ a) : (insertCell a v m).Pairwise (fun c d => c.1 < d.1) := by
  induction m with
  | nil => simp [insertCell]
  | cons d m ih =>
    obtain ⟨hd, hm⟩ := List.pairwise_cons.mp h
    by_cases hlt : a < d.1
    · rw [insertCell, if_pos hlt]
      refine List.pairwise_cons.mpr ⟨fun c hc => ?_, h⟩
      rcases List.mem_cons.mp hc with rfl | hc
      · exact hlt
      · exact hlt.trans (hd c hc)
    · simp only [insertCell, hlt, if_false, List.pairwise_cons]
      refine ⟨fun c hc => ?_, ih hm fun c hc => ha c (by simp [hc])⟩
      rcases mem_insertCell hc with rfl | hc
      · exact lt_of_le_of_ne (not_lt.mp hlt) (ha d (by simp))
      · exact hd c hc

theorem writeCell_wf {a : Nat} {v : Word} {m : Memory} (ha : a < memWords) (h : Memory.wf m) :
    Memory.wf (writeCell a v m) := by
  unfold writeCell
  split
  · exact eraseCell_wf h
  · next hv =>
    refine ⟨insertCell_pairwise (eraseCell_wf h).1
      (by intro c hc; simpa [eraseCell] using (List.mem_filter.mp hc).2), fun c hc => ?_⟩
    rcases mem_insertCell hc with rfl | hc
    · exact ⟨ha, hv⟩
    · exact (eraseCell_wf h).2 c hc

/-- MemWrite keeps the canonical form. -/
theorem memWrite_wf {s : State} (a v : Word) (h : s.mem.wf) : (memWrite a v s).mem.wf :=
  writeCell_wf a.isLt h

theorem reset_wf : State.reset.mem.wf := by decide

theorem readCell_of_lt {a : Nat} {m : Memory} (h : ∀ c ∈ m, a < c.1) : readCell a m = 0x0000#16 := by
  induction m with
  | nil => rfl
  | cons c m ih =>
    have hc : c.1 ≠ a := (h c (by simp)).ne'
    simp only [readCell, hc, if_false]
    exact ih fun d hd => h d (by simp [hd])

/-! Reads of a state's cells. -/

theorem storeRead_memWrite (s : State) (a b v : Word) :
    storeRead b (memWrite a v s) = if b = a then v else storeRead b s := by
  simp only [storeRead, memWrite_mem, readCell_writeCell, BitVec.toNat_inj]

theorem storeRead_congr {s t : State} (h : t.mem = s.mem) (a : Word) : storeRead a t = storeRead a s := by
  simp only [storeRead, h]

@[simp] theorem storeRead_setReg (s : State) (r : RegIdx) (v a : Word) :
    storeRead a (s.setReg r v) = storeRead a s := rfl
@[simp] theorem storeRead_setPc (s : State) (v a : Word) : storeRead a (s.setPc v) = storeRead a s := rfl
@[simp] theorem storeRead_writeDest (s : State) (r : RegIdx) (v a : Word) :
    storeRead a (writeDest r v s) = storeRead a s := rfl
@[simp] theorem storeRead_saveReturn (s : State) (a : Word) : storeRead a (saveReturn s) = storeRead a s := rfl
@[simp] theorem storeRead_outBytes (s : State) (bs : List Byte) (a : Word) :
    storeRead a (outBytes bs s) = storeRead a s := rfl
@[simp] theorem storeRead_outFlush (s : State) (a : Word) : storeRead a (outFlush s) = storeRead a s := rfl

/-! The environment's answers change the environment alone. -/

theorem inPoll_snd (s : State) : ∃ e, (inPoll s).2 = { s with env := e } := by
  unfold inPoll; split <;> exact ⟨_, rfl⟩

theorem inRead_snd (s : State) : ∃ e, (inRead s).2 = { s with env := e } := by
  unfold inRead; split <;> exact ⟨_, rfl⟩

theorem sampleStop_snd (s : State) : ∃ e, (sampleStop s).2 = { s with env := e } := by
  unfold sampleStop; split
  · exact ⟨_, rfl⟩
  · exact ⟨s.env, rfl⟩

theorem inWait_snd (s : State) : ∃ e, (inWait s).2 = { s with env := e } := by
  unfold inWait; split
  · exact ⟨_, rfl⟩
  · exact ⟨s.env, rfl⟩

/-- R52, R61: all that a poll can do: the status cell gets 0x8000 and the data cell an input word, or the status
cell gets 0x0000; the environment moves on. -/
theorem pollKeyboard_cases (s : State) :
    (∃ e w, pollKeyboard s =
      { s with mem := writeCell s.cfg.kbdrAddr.toNat w (writeCell s.cfg.kbsrAddr.toNat 0x8000#16 s.mem), env := e }) ∨
    (∃ e, pollKeyboard s = { s with mem := writeCell s.cfg.kbsrAddr.toNat 0x0000#16 s.mem, env := e }) := by
  obtain ⟨e, he⟩ := inPoll_snd s
  unfold pollKeyboard
  by_cases hp : (inPoll s).1
  · left
    obtain ⟨e', he'⟩ := inRead_snd (memWrite s.cfg.kbsrAddr 0x8000#16 (inPoll s).2)
    simp only [hp, if_true]
    rw [he', he]
    exact ⟨e', _, rfl⟩
  · right
    simp only [hp]
    rw [he]
    exact ⟨e, rfl⟩

/-- R52: a read of the status cell whose poll finds no input gives 0x0000. -/
theorem memRead_no_input {a : Word} {s : State} {rest : List Bool} (ha : a = s.cfg.kbsrAddr)
    (hp : s.env.polls = false :: rest) : (memRead a s).1 = 0x0000#16 := by
  have h1 : (inPoll s).1 = false := by simp [inPoll, hp]
  rw [memRead, if_pos ha, pollKeyboard, ha]
  simp only [h1]
  exact (storeRead_memWrite ..).trans (if_pos rfl)

/-- R52: a read of the status cell whose poll finds input takes one poll answer, and no parameter changes. -/
theorem memRead_input_env {a : Word} {s : State} {rest : List Bool} (ha : a = s.cfg.kbsrAddr)
    (hp : s.env.polls = true :: rest) :
    (memRead a s).2.env.polls = rest ∧ (memRead a s).2.env.reads = s.env.reads.tail ∧ (memRead a s).2.cfg = s.cfg := by
  have h1 : inPoll s = (true, { s with env := { s.env with polls := rest } }) := by simp [inPoll, hp]
  rw [memRead, if_pos ha, pollKeyboard]
  simp only [h1, if_true, inRead]
  cases s.env.reads <;> simp [memWrite]

/-- R52: that read leaves the scripted character's word in the data cell. -/
theorem memRead_input_data {a : Word} {s : State} {rest : List Bool} {c : InAnswer} {cs : List InAnswer}
    (ha : a = s.cfg.kbsrAddr) (hp : s.env.polls = true :: rest) (hr : s.env.reads = c :: cs) :
    storeRead s.cfg.kbdrAddr (memRead a s).2 = inputWord s.cfg c ∧
      (memRead a s).1 = storeRead a (memRead a s).2 := by
  have h1 : inPoll s = (true, { s with env := { s.env with polls := rest } }) := by simp [inPoll, hp]
  refine ⟨?_, by simp only [memRead, ha, if_true]⟩
  rw [memRead, if_pos ha, pollKeyboard]
  simp only [h1, if_true, inRead, memWrite_env, hr]
  exact (storeRead_memWrite ..).trans (if_pos rfl)

/-- R61: a read of any other address has no side effect. -/
theorem memRead_plain {a : Word} {s : State} (h : a ≠ s.cfg.kbsrAddr) : memRead a s = (storeRead a s, s) := by
  simp [memRead, h]

/-- All that a MemRead can do: change the memory, canonically and in the keyboard cells alone, and the environment. -/
theorem memRead_snd (a : Word) (s : State) :
    ∃ m e, (memRead a s).2 = { s with mem := m, env := e } ∧ (s.mem.wf → Memory.wf m) ∧
      ∀ b : Word, b ≠ s.cfg.kbsrAddr → b ≠ s.cfg.kbdrAddr → readCell b.toNat m = readCell b.toNat s.mem := by
  by_cases ha : a = s.cfg.kbsrAddr
  · simp only [memRead, ha, if_true]
    rcases pollKeyboard_cases s with ⟨e, w, h⟩ | ⟨e, h⟩
    · refine ⟨_, e, h, fun hw => writeCell_wf (BitVec.isLt _) (writeCell_wf (BitVec.isLt _) hw), fun b h1 h2 => ?_⟩
      simp only [readCell_writeCell, BitVec.toNat_inj, h1, h2, if_false]
    · refine ⟨_, e, h, fun hw => writeCell_wf (BitVec.isLt _) hw, fun b h1 _ => ?_⟩
      simp only [readCell_writeCell, BitVec.toNat_inj, h1, if_false]
  · exact ⟨s.mem, s.env, by simp [memRead_plain ha], id, fun _ _ _ => rfl⟩

@[simp] theorem busRead_fetch (a : Word) (s : State) : busRead .fetch a s = memRead a s := rfl
@[simp] theorem busRead_read (a : Word) (s : State) : busRead .read a s = memRead a s := rfl
@[simp] theorem busRead_readRaw (a : Word) (s : State) : busRead .readRaw a s = (storeRead a s, s) := rfl

end Sys2Proof.Machine
end

