-- ==== Sys2Proof/Laws/Arith.lean ====
section
/-! SUPPORT. The exact arithmetic of the statements against the machine's own: sums, sign extension, the condition
code and the BR test; and what a masked match says of a word's opcode. -/

namespace Sys2Proof.Machine

/-- R10: adding the narrowed offset is narrowing the exact sum. -/
theorem wrap_add (a : Word) (n : Int) : wrap (a.toNat + n) = a + BitVec.ofInt 16 n := by
  apply BitVec.eq_of_toInt_eq
  simp only [wrap, BitVec.toInt_ofInt, BitVec.toInt_add]
  rw [BitVec.toInt_eq_toNat_bmod]
  simp

theorem wrap_toNat_add (a b : Word) : wrap (a.toNat + b.toNat) = a + b := by
  rw [wrap_add]
  simp

/-- R116: the executing instruction's address. -/
theorem wrap_instrAddr (s : State) : wrap (s.pc.toNat - 1) = s.instrAddr := by
  rw [Int.sub_eq_add_neg, wrap_add, State.instrAddr, BitVec.sub_eq_add_neg]
  rfl

/-- R150: the effective addresses, exactly. -/
theorem pcRel9_eq_wrap (off : BitVec 9) (s : State) : pcRel9 off s = wrap (s.pc.toNat + off.toInt) :=
  (wrap_add _ _).symm

theorem pcRel11_eq_wrap (off : BitVec 11) (s : State) : pcRel11 off s = wrap (s.pc.toNat + off.toInt) :=
  (wrap_add _ _).symm

theorem baseOff6_eq_wrap (base : RegIdx) (off : BitVec 6) (s : State) :
    baseOff6 base off s = wrap ((s.reg base).toNat + off.toInt) :=
  (wrap_add _ _).symm

/-- R27: `ccOf` is the flag of the signed value. -/
theorem ccOf_matches (v : Word) : ccMatches (ccOf v) v := by
  unfold ccMatches ccOf
  refine ⟨fun h => ?_, fun h => ?_, fun h => ?_⟩
  · have : v = 0#16 := BitVec.eq_of_toInt_eq (by simpa using h)
    simp [this]
  · have h0 : v ≠ 0#16 := by rintro rfl; simp at h
    have hm : v.msb = true := by rw [BitVec.msb_eq_toInt]; simpa using h
    simp [h0, hm]
  · have h0 : v ≠ 0#16 := by rintro rfl; simp at h
    have hm : v.msb = false := by rw [BitVec.msb_eq_toInt]; simp; omega
    simp [h0, hm]

/-- R140: the AND test is the test of the flag's own bit. -/
theorem brTaken_eq_selects (nzp : BitVec 3) (s : State) : brTaken nzp s = selects nzp s.cc := by
  unfold brTaken selects
  cases s.cc <;> revert nzp <;> decide

end Sys2Proof.Machine

namespace Sys2Proof

/-- A match under a mask that covers the opcode fixes the opcode. -/
theorem opOf_of_masked {w m v : Word} (h : w &&& m = v) (hm : m.extractLsb' 12 4 = 15#4) :
    opOf w = v.extractLsb' 12 4 := by
  have hf := extractLsb'_and_eq h 12 4
  rw [hm] at hf
  exact (BitVec.and_allOnes (w := 4)).symm.trans hf

/-- A match under a mask that covers one bit fixes the bit. -/
theorem bit_of_masked {w m v : Word} (h : w &&& m = v) {k : Nat} (hm : m.extractLsb' k 1 = 1#1) :
    w.extractLsb' k 1 = v.extractLsb' k 1 := by
  have hf := extractLsb'_and_eq h k 1
  rw [hm] at hf
  exact (BitVec.and_allOnes (w := 1)).symm.trans hf

end Sys2Proof
end

