-- ==== Sys2Proof/Laws/Io.lean ====
section
/-! SUPPORT. What the shared operations of the TRAP routines can do: the blocking read and the string loop. -/

namespace Sys2Proof.Machine

/-- The blocking read ends with an answer, with a stop request, or not at all. -/
theorem blockingRead_cases (s : State) (k : InAnswer → State → State) :
    ((inWait s).1 = .answered ∧
      blockingRead s k = .next (k (inRead (inWait s).2).1 (inRead (inWait s).2).2)) ∨
    ((inWait s).1 = .stopRequested ∧ blockingRead s k = .next (stopRun (inWait s).2)) ∨
    ((inWait s).1 = .neverAnswered ∧ blockingRead s k = .fault .blockedOnInput) := by
  unfold blockingRead
  cases h : (inWait s).1 <;> simp [h]

/-- R54: a string read, like every read, changes at most the keyboard cells and the environment. -/
theorem stringRead_snd (a : Word) (s : State) :
    ∃ m e, (stringRead a s).2 = { s with mem := m, env := e } ∧ (s.mem.wf → Memory.wf m) ∧
      ∀ b : Word, b ≠ s.cfg.kbsrAddr → b ≠ s.cfg.kbdrAddr → readCell b.toNat m = readCell b.toNat s.mem := by
  unfold stringRead
  cases s.cfg.putsReadsViaDevice
  · exact ⟨s.mem, s.env, rfl, id, fun _ _ _ => rfl⟩
  · simpa using memRead_snd a s

/-- R54: with the parameter false, or away from the status cell, a string read is plain. -/
theorem stringRead_plain {a : Word} {s : State} (h : s.cfg.putsReadsViaDevice = false ∨ a ≠ s.cfg.kbsrAddr) :
    stringRead a s = (storeRead a s, s) := by
  unfold stringRead
  rcases h with h | h
  · simp [h]
  · cases s.cfg.putsReadsViaDevice
    · rfl
    · simpa using memRead_plain h

/-- All that the string loop can do when it ends: emit bytes, and change the keyboard cells and the environment. -/
theorem emitString_some {chars : Word → List Byte} {fuel : Nat} {a : Word} {s t : State}
    (h : emitString chars fuel a s = some t) :
    ∃ m e bs, t = { s with mem := m, env := e, out := s.out ++ bs } ∧ (s.mem.wf → Memory.wf m) ∧
      ∀ b : Word, b ≠ s.cfg.kbsrAddr → b ≠ s.cfg.kbdrAddr → readCell b.toNat m = readCell b.toNat s.mem := by
  induction fuel generalizing a s with
  | zero => simp [emitString] at h
  | succ fuel ih =>
    obtain ⟨m, e, hr, hw, hc⟩ := stringRead_snd a s
    rw [emitString] at h
    by_cases h0 : (stringRead a s).1 = 0x0000#16
    · simp only [h0, if_true, Option.some.injEq] at h
      exact ⟨m, e, [], by rw [← h, hr, List.append_nil], hw, hc⟩
    · simp only [h0, if_false] at h
      obtain ⟨m', e', bs, ht, hw', hc'⟩ := ih h
      rw [hr] at ht hw' hc'
      refine ⟨m', e', chars (stringRead a s).1 ++ bs, ?_, fun w => hw' (hw w), fun b h1 h2 => ?_⟩
      · rw [ht]; simp [outBytes]
      · exact (hc' b h1 h2).trans (hc b h1 h2)

/-- Every address is reached from every other by counting up. -/
theorem add_distance (a b : Word) : a + BitVec.ofNat 16 (b - a).toNat = b := by
  rw [BitVec.ofNat_toNat, BitVec.setWidth_eq, BitVec.add_comm, BitVec.sub_add_cancel]

/-- The string loop ends within the distance of a zero word that no poll can change: any word with raw reads, a word
of another cell than the two keyboard cells where the reads poll. -/
theorem emitString_ends_at_zero {chars : Word → List Byte} {j fuel : Nat} {a : Word} {s : State} (hj : j < fuel)
    (hz : storeRead (a + BitVec.ofNat 16 j) s = 0x0000#16)
    (hk : s.cfg.putsReadsViaDevice = false ∨
      (a + BitVec.ofNat 16 j ≠ s.cfg.kbsrAddr ∧ a + BitVec.ofNat 16 j ≠ s.cfg.kbdrAddr)) :
    ∃ t, emitString chars fuel a s = some t := by
  induction fuel generalizing a j s with
  | zero => omega
  | succ fuel ih =>
    rw [emitString]
    by_cases h0 : (stringRead a s).1 = 0x0000#16
    · exact ⟨_, by simp only [h0, if_true]; rfl⟩
    · simp only [h0, if_false]
      cases j with
      | zero =>
        rw [show a + BitVec.ofNat 16 0 = a by simp] at hz hk
        rw [stringRead_plain (hk.imp_right And.left)] at h0
        exact absurd hz h0
      | succ j =>
        have ha : a + 1#16 + BitVec.ofNat 16 j = a + BitVec.ofNat 16 (j + 1) := by
          apply BitVec.eq_of_toNat_eq
          simp only [BitVec.toNat_add, BitVec.toNat_ofNat]
          omega
        obtain ⟨m, e, hr, -, hc⟩ := stringRead_snd a s
        refine ih (j := j) (by omega) ?_ ?_
        · rw [ha, storeRead_outBytes]
          rcases hk with hk | hk
          · rw [stringRead_plain (.inl hk)]
            exact hz
          · rw [hr]
            exact (hc _ hk.1 hk.2).trans hz
        · rw [ha, hr]
          exact hk

/-- Where the reads poll, the string loop ends at the latest at the first scripted poll that finds no input: in the
pass over the address space that follows `k` polls, `d` reads before the status cell. -/
theorem emitString_ends_at_poll {chars : Word → List Byte} {k d fuel : Nat} {rest : List Bool} {a : Word} {s : State}
    (hv : s.cfg.putsReadsViaDevice = true) (hp : s.env.polls = List.replicate k true ++ false :: rest)
    (hd : d < 65536) (ha : a + BitVec.ofNat 16 d = s.cfg.kbsrAddr) (hf : d + 65536 * k < fuel) :
    ∃ t, emitString chars fuel a s = some t := by
  induction fuel generalizing a d k s with
  | zero => omega
  | succ fuel ih =>
    rw [emitString]
    by_cases h0 : (stringRead a s).1 = 0x0000#16
    · exact ⟨_, by simp only [h0, if_true]; rfl⟩
    · simp only [h0, if_false]
      by_cases hs : a = s.cfg.kbsrAddr
      · have hd0 : d = 0 := by
          have h1 := congrArg BitVec.toNat (ha.trans hs.symm)
          simp only [BitVec.toNat_add, BitVec.toNat_ofNat] at h1
          omega
        have hread : stringRead a s = memRead a s := by simp [stringRead, hv]
        cases k with
        | zero =>
          rw [hread] at h0
          exact absurd (memRead_no_input hs (by simpa using hp)) h0
        | succ k =>
          obtain ⟨hpolls, -, hcfg⟩ := memRead_input_env hs
            (show s.env.polls = true :: (List.replicate k true ++ false :: rest) by
              simpa [List.replicate_succ] using hp)
          refine ih (k := k) (d := 65535) (by simpa [hread, hcfg] using hv) (by simpa [hread] using hpolls)
            (by norm_num) ?_ (by omega)
          rw [hread, outBytes_cfg, hcfg, ← hs]
          apply BitVec.eq_of_toNat_eq
          simp only [BitVec.toNat_add, BitVec.toNat_ofNat]
          omega
      · have hpl := stringRead_plain (a := a) (s := s) (.inr hs)
        have hd1 : d ≠ 0 := by
          rintro rfl
          exact hs (by simpa using ha)
        refine ih (k := k) (d := d - 1) (by simpa [hpl] using hv) (by simpa [hpl] using hp) (by omega) ?_ (by omega)
        rw [hpl, outBytes_cfg, ← ha]
        apply BitVec.eq_of_toNat_eq
        simp only [BitVec.toNat_add, BitVec.toNat_ofNat]
        omega

/-- The string loop ends at a zero word that it reaches before it reaches the status cell. -/
theorem emitString_ends_before_poll {chars : Word → List Byte} {j fuel : Nat} {a : Word} {s : State} (hj : j < fuel)
    (hz : storeRead (a + BitVec.ofNat 16 j) s = 0x0000#16)
    (hk : ∀ i ≤ j, a + BitVec.ofNat 16 i ≠ s.cfg.kbsrAddr) : ∃ t, emitString chars fuel a s = some t := by
  have hs : ∀ i, a + 1#16 + BitVec.ofNat 16 i = a + BitVec.ofNat 16 (i + 1) := fun i => by
    rw [BitVec.add_assoc, Nat.add_comm i 1, BitVec.ofNat_add]
  have ha : a ≠ s.cfg.kbsrAddr := by simpa using hk 0 (by omega)
  induction fuel generalizing a j s with
  | zero => omega
  | succ fuel ih =>
    rw [emitString, stringRead_plain (.inr ha)]
    by_cases h0 : storeRead a s = 0x0000#16
    · exact ⟨s, by simp only [h0, if_true]⟩
    · simp only [h0, if_false]
      cases j with
      | zero => exact absurd (by simpa using hz) h0
      | succ j =>
        refine ih (j := j) (by omega) (by rw [hs, storeRead_outBytes]; exact hz) (fun i hi => ?_) (fun i => ?_) ?_
        · rw [hs, outBytes_cfg]
          exact hk _ (by omega)
        · rw [BitVec.add_assoc, Nat.add_comm i 1, BitVec.ofNat_add]
        · simpa [BitVec.add_zero] using hk 1 (by omega)

/-- Where the reads poll and every poll finds input, the string loop ends at the latest at a scripted character that is
a zero word, once it stands in the data cell: `k` polls take the characters before it. -/
theorem emitString_ends_at_read {chars : Word → List Byte} {k d fuel : Nat} {ps : List Bool} {c : InAnswer}
    {before after : List InAnswer} {a : Word} {s : State} (hv : s.cfg.putsReadsViaDevice = true)
    (hp : s.env.polls = List.replicate (k + 1) true ++ ps) (hr : s.env.reads = before ++ c :: after)
    (hb : before.length = k) (hc : inputWord s.cfg c = 0x0000#16) (hd : d < 65536)
    (ha : a + BitVec.ofNat 16 d = s.cfg.kbsrAddr) (hf : d + 65536 * k + 65535 < fuel) :
    ∃ t, emitString chars fuel a s = some t := by
  induction fuel generalizing a d k s before with
  | zero => omega
  | succ fuel ih =>
    rw [emitString]
    by_cases h0 : (stringRead a s).1 = 0x0000#16
    · exact ⟨_, by simp only [h0, if_true]; rfl⟩
    · simp only [h0, if_false]
      by_cases hs : a = s.cfg.kbsrAddr
      · have hd0 : d = 0 := by
          have h1 := congrArg BitVec.toNat (ha.trans hs.symm)
          simp only [BitVec.toNat_add, BitVec.toNat_ofNat] at h1
          omega
        have hread : stringRead a s = memRead a s := by simp [stringRead, hv]
        have hp' : s.env.polls = true :: (List.replicate k true ++ ps) := by
          simpa [List.replicate_succ] using hp
        obtain ⟨hpolls, hreads, hcfg⟩ := memRead_input_env hs hp'
        cases k with
        | zero =>
          obtain rfl : before = [] := List.length_eq_zero_iff.mp hb
          obtain ⟨hdata, hval⟩ := memRead_input_data hs hp' hr
          have hne : s.cfg.kbdrAddr ≠ a := fun e => h0 <| by
            rw [e] at hdata
            rw [hread, hval, hdata, hc]
          have hj := add_distance (a + 1#16) s.cfg.kbdrAddr
          have hlt := (s.cfg.kbdrAddr - (a + 1#16)).isLt
          have hlast : (s.cfg.kbdrAddr - (a + 1#16)).toNat ≠ 65535 := fun e => hne <| by
            rw [e] at hj
            rw [← hj]
            apply BitVec.eq_of_toNat_eq
            simp only [BitVec.toNat_add, BitVec.toNat_ofNat]
            omega
          refine emitString_ends_before_poll (j := (s.cfg.kbdrAddr - (a + 1#16)).toNat) (by omega) ?_ fun i hi e => ?_
          · rw [hj, storeRead_outBytes, hread, hdata, hc]
          · rw [hread, outBytes_cfg, hcfg, ← hs] at e
            have h1 := congrArg BitVec.toNat e
            simp only [BitVec.toNat_add, BitVec.toNat_ofNat] at h1
            omega
        | succ k =>
          cases before with
          | nil => simp at hb
          | cons b before =>
            refine ih (k := k) (d := 65535) (before := before) (by simpa [hread, hcfg] using hv)
              (by simpa [hread] using hpolls) (by simp [hread, hreads, hr]) (by simpa using hb)
              (by simpa [hread, hcfg] using hc) (by norm_num) ?_ (by omega)
            rw [hread, outBytes_cfg, hcfg, ← hs]
            apply BitVec.eq_of_toNat_eq
            simp only [BitVec.toNat_add, BitVec.toNat_ofNat]
            omega
      · have hpl := stringRead_plain (a := a) (s := s) (.inr hs)
        have hd1 : d ≠ 0 := by
          rintro rfl
          exact hs (by simpa using ha)
        refine ih (k := k) (d := d - 1) (before := before) (by simpa [hpl] using hv) (by simpa [hpl] using hp)
          (by simpa [hpl] using hr) hb (by simpa [hpl] using hc) (by omega) ?_ (by omega)
        rw [hpl, outBytes_cfg, ← ha]
        apply BitVec.eq_of_toNat_eq
        simp only [BitVec.toNat_add, BitVec.toNat_ofNat]
        omega

/-- A list with a `false` in it begins with some number of `true`s, fewer than its length, and that `false`. -/
theorem replicate_true_of_mem_false {l : List Bool} (h : false ∈ l) :
    ∃ k rest, l = List.replicate k true ++ false :: rest ∧ k < l.length := by
  induction l with
  | nil => simp at h
  | cons b l ih =>
    cases b
    · exact ⟨0, l, by simp⟩
    · obtain ⟨k, rest, hl, hk⟩ := ih (by simpa using h)
      exact ⟨k + 1, rest, by simp [List.replicate_succ, hl.symm], by simpa using hk⟩

/-- Where the reads poll, a scripted poll that finds no input ends the loop within the script. -/
theorem scriptedString_of_false_poll {chars : Word → List Byte} {s : State} (hv : s.cfg.putsReadsViaDevice = true)
    (hp : false ∈ s.env.polls) : ∃ t, scriptedString chars s = some t := by
  obtain ⟨k, rest, hl, hk⟩ := replicate_true_of_mem_false hp
  refine emitString_ends_at_poll (d := (s.cfg.kbsrAddr - s.reg 0#3).toNat) hv hl (BitVec.isLt _)
    (add_distance _ _) ?_
  have hlt := (s.cfg.kbsrAddr - s.reg 0#3).isLt
  simp only [stringFuel, hv, if_true, memWords]
  omega

/-- A zero word that no poll can change ends the loop within the script. -/
theorem scriptedString_of_zero {chars : Word → List Byte} {s : State} {a : Word} (hz : storeRead a s = 0x0000#16)
    (hk : s.cfg.putsReadsViaDevice = false ∨ (a ≠ s.cfg.kbsrAddr ∧ a ≠ s.cfg.kbdrAddr)) :
    ∃ t, scriptedString chars s = some t := by
  have ha := add_distance (s.reg 0#3) a
  refine emitString_ends_at_zero (j := (a - s.reg 0#3).toNat) ?_ (by rw [ha]; exact hz) (by rw [ha]; exact hk)
  have hlt := (a - s.reg 0#3).isLt
  simp only [stringFuel, memWords]
  split <;> omega

/-- Where the reads poll and the polls given find input, a scripted character that is a zero word ends the loop. -/
theorem scriptedString_of_zero_read {chars : Word → List Byte} {s : State} (hv : s.cfg.putsReadsViaDevice = true)
    (hp : ∀ b ∈ s.env.polls, b = true) (hn : s.env.reads.length ≤ s.env.polls.length) {c : InAnswer}
    (hc : c ∈ s.env.reads) (hz : inputWord s.cfg c = 0x0000#16) : ∃ t, scriptedString chars s = some t := by
  obtain ⟨before, after, hr⟩ := List.append_of_mem hc
  have hlen := congrArg List.length hr
  simp only [List.length_append, List.length_cons] at hlen
  have hrep : s.env.polls = List.replicate (before.length + 1) true ++
      List.replicate (s.env.polls.length - (before.length + 1)) true := by
    rw [List.replicate_append_replicate, Nat.add_sub_cancel' (by omega)]
    exact List.eq_replicate_iff.mpr ⟨rfl, hp⟩
  refine emitString_ends_at_read (d := (s.cfg.kbsrAddr - s.reg 0#3).toNat) hv hrep hr rfl hz (BitVec.isLt _)
    (add_distance _ _) ?_
  have hlt := (s.cfg.kbsrAddr - s.reg 0#3).isLt
  simp only [stringFuel, hv, if_true, memWords]
  omega

/-- A string routine ends within the script, or over the polls the environment supplies past it, or never. -/
theorem putString_cases (chars : Word → List Byte) (s : State) :
    (∃ t, scriptedString chars s = some t ∧ putString chars s = .next t) ∨
    (s.cfg.putsReadsViaDevice = true ∧ scriptedString chars s = none ∧ ∃ t,
      scriptedString chars (supplyPolls (furtherPolls s) s) = some t ∧ putString chars s = .next (dropPolls t)) ∨
    (putString chars s = .fault .stringNeverEnds ∧ scriptedString chars s = none ∧
      (s.cfg.putsReadsViaDevice = true → scriptedString chars (supplyPolls (furtherPolls s) s) = none)) := by
  unfold putString stringEnd
  cases h : scriptedString chars s with
  | some t => exact .inl ⟨t, rfl, rfl⟩
  | none =>
    cases hv : s.cfg.putsReadsViaDevice with
    | false => exact .inr (.inr ⟨by simp [suppliedString, hv], rfl, by simp⟩)
    | true =>
      cases hu : scriptedString chars (supplyPolls (furtherPolls s) s) with
      | none => exact .inr (.inr ⟨by simp [suppliedString, hv, hu], rfl, fun _ => rfl⟩)
      | some t => exact .inr (.inl ⟨rfl, rfl, t, rfl, by simp [suppliedString, hv, hu, outFlush]⟩)

/-- A string routine that does not end is one that nothing ends. -/
theorem stringHangs_of_putString {chars : Word → List Byte} {s : State}
    (h : putString chars s = .fault .stringNeverEnds) : stringHangs s := by
  rcases putString_cases chars s with ⟨t, -, he⟩ | ⟨-, -, t, -, he⟩ | ⟨-, hn, hu⟩
  · rw [he] at h
    cases h
  · rw [he] at h
    cases h
  have hpolls : s.cfg.putsReadsViaDevice = true → ∀ b ∈ s.env.polls, b = true := fun hv b hb => by
    cases b with
    | true => rfl
    | false =>
      obtain ⟨t, ht⟩ := scriptedString_of_false_poll (chars := chars) hv hb
      simp [hn] at ht
  have hfree : s.cfg.putsReadsViaDevice = true → Config.freePolls s.env.draws = none := fun hv => by
    cases hf : Config.freePolls s.env.draws with
    | none => rfl
    | some ps =>
      obtain ⟨t, ht⟩ := scriptedString_of_false_poll (chars := chars) (s := supplyPolls (furtherPolls s) s) hv
        (by simp [furtherPolls, hf])
      simp [hu hv] at ht
  refine ⟨fun a ha hz => ?_, fun hv => ⟨hpolls hv, hfree hv, fun c hc hz => ?_⟩⟩
  · obtain ⟨t, ht⟩ := scriptedString_of_zero (chars := chars) hz ha
    simp [hn] at ht
  · have hp : (supplyPolls (furtherPolls s) s).env.polls =
        s.env.polls ++ List.replicate s.env.reads.length true := by simp [furtherPolls, hfree hv]
    obtain ⟨t, ht⟩ := scriptedString_of_zero_read (chars := chars) (s := supplyPolls (furtherPolls s) s) hv
      (fun b hb => by
        rw [hp, List.mem_append] at hb
        exact hb.elim (hpolls hv b) List.eq_of_mem_replicate)
      (by rw [hp]; simp) (c := c) (by simpa using hc) hz
    simp [hu hv] at ht

/-- All that a string routine can do when it completes: emit bytes, and change the keyboard cells and the
environment. -/
theorem putString_next {chars : Word → List Byte} {s t : State} (h : putString chars s = .next t) :
    ∃ m e bs, t = { s with mem := m, env := e, out := s.out ++ bs } ∧ (s.mem.wf → Memory.wf m) ∧
      ∀ b : Word, b ≠ s.cfg.kbsrAddr → b ≠ s.cfg.kbdrAddr → readCell b.toNat m = readCell b.toNat s.mem := by
  rcases putString_cases chars s with ⟨u, hu, he⟩ | ⟨-, -, u, hu, he⟩ | ⟨he, -⟩
  · rw [he] at h
    injection h with h
    subst h
    exact emitString_some hu
  · rw [he] at h
    injection h with h
    subst h
    obtain ⟨m, e, bs, rfl, hw, hc⟩ := emitString_some hu
    exact ⟨m, _, bs, rfl, hw, hc⟩
  · rw [he] at h
    cases h

end Sys2Proof.Machine
end

