-- ==== Sys2Proof/Laws/PerInstr.lean ====
section
/-! SUPPORT. Per-instruction laws about the instruction as syntax: the opcode of its word (30_encoding.md rule R84). -/

namespace Sys2Proof.Laws.OpcodeField

/-- The top four bits of the instruction's word are the opcode the map of rule R84 gives it. -/
def Statement (i : Instr) : Prop := (encode i).extractLsb' 12 4 = opcode i

theorem br (nzp : BitVec 3) (off : BitVec 9) : Statement (.br nzp off) := opOf_encode _
theorem addReg (dr : RegIdx) (sr1 : RegIdx) (sr2 : RegIdx) : Statement (.addReg dr sr1 sr2) := opOf_encode _
theorem addImm (dr : RegIdx) (sr1 : RegIdx) (imm : BitVec 5) : Statement (.addImm dr sr1 imm) := opOf_encode _
theorem ld (dr : RegIdx) (off : BitVec 9) : Statement (.ld dr off) := opOf_encode _
theorem st (sr : RegIdx) (off : BitVec 9) : Statement (.st sr off) := opOf_encode _
theorem jsr (off : BitVec 11) : Statement (.jsr off) := opOf_encode _
theorem jsrr (base : RegIdx) : Statement (.jsrr base) := opOf_encode _
theorem andReg (dr : RegIdx) (sr1 : RegIdx) (sr2 : RegIdx) : Statement (.andReg dr sr1 sr2) := opOf_encode _
theorem andImm (dr : RegIdx) (sr1 : RegIdx) (imm : BitVec 5) : Statement (.andImm dr sr1 imm) := opOf_encode _
theorem ldr (dr : RegIdx) (base : RegIdx) (off : BitVec 6) : Statement (.ldr dr base off) := opOf_encode _
theorem str (sr : RegIdx) (base : RegIdx) (off : BitVec 6) : Statement (.str sr base off) := opOf_encode _
theorem rsv8 : Statement (.rsv8) := opOf_encode _
theorem not (dr : RegIdx) (sr1 : RegIdx) : Statement (.not dr sr1) := opOf_encode _
theorem ldi (dr : RegIdx) (off : BitVec 9) : Statement (.ldi dr off) := opOf_encode _
theorem sti (sr : RegIdx) (off : BitVec 9) : Statement (.sti sr off) := opOf_encode _
theorem jmp (base : RegIdx) : Statement (.jmp base) := opOf_encode _
theorem rsv13 : Statement (.rsv13) := opOf_encode _
theorem lea (dr : RegIdx) (off : BitVec 9) : Statement (.lea dr off) := opOf_encode _
theorem trapGetc : Statement (.trapGetc) := opOf_encode _
theorem trapOut : Statement (.trapOut) := opOf_encode _
theorem trapPuts : Statement (.trapPuts) := opOf_encode _
theorem trapIn : Statement (.trapIn) := opOf_encode _
theorem trapPutsp : Statement (.trapPutsp) := opOf_encode _
theorem trapHalt : Statement (.trapHalt) := opOf_encode _
theorem trapOther (vect : BitVec 8) : Statement (.trapOther vect) := opOf_encode _

end Sys2Proof.Laws.OpcodeField
end

