-- ==== Sys2Proof/Laws/Step.lean ====
section
/-! SUPPORT. Everything one step can do, said once. -/

namespace Sys2Proof.Machine

/-- R111: what a fetch leaves. -/
theorem fetch_eq (s : State) :
    fetch s = { (memRead s.pc s).2 with ir := (memRead s.pc s).1, pc := s.pc + 1#16 } := rfl

/-- Where a step's ending answers a next state, it is the instruction's own, and no fault was raised. -/
theorem finishStep_next {o : Host.Outcome State Fault Refusal} {t : State} (h : finishStep o = .next t) :
    o = .next t ∧ ∀ r, t.run ≠ .aborted r := by
  cases o with
  | next u =>
    cases hr : u.run with
    | aborted r => simp [finishStep, hr] at h
    | running | halted | stopped =>
      simp only [finishStep, hr, Host.Outcome.next.injEq] at h
      subst h
      exact ⟨rfl, fun r e => by simp [hr] at e⟩
  | fault f => simp [finishStep] at h
  | refused r => simp [finishStep] at h

/-- A next state comes from a terminal state unchanged, from a stop request, or from one instruction's execution. -/
theorem step_cases {s t : State} (h : step s = .next t) :
    (s.run ≠ .running ∧ t = s ∧ ∀ r, t.run ≠ .aborted r) ∨
    (s.run = .running ∧ (sampleStop s).1 = true ∧ t = stopRun (sampleStop s).2) ∨
    (s.run = .running ∧ (sampleStop s).1 = false ∧ (∀ r, t.run ≠ .aborted r) ∧
      exec (decode (fetch (sampleStop s).2).ir) (fetch (sampleStop s).2) = .next t) := by
  unfold step at h
  cases hr : s.run with
  | running =>
    simp only [hr] at h
    by_cases hq : (sampleStop s).1
    · simp only [hq, if_true] at h
      injection h with h
      exact .inr (.inl ⟨rfl, hq, h.symm⟩)
    · simp only [hq] at h
      obtain ⟨he, hn⟩ := finishStep_next h
      exact .inr (.inr ⟨rfl, by simpa using hq, hn, he⟩)
  | halted | aborted r | stopped =>
    simp only [hr, terminalStep] at h
    obtain ⟨he, hn⟩ := finishStep_next h
    injection he with he
    exact .inl ⟨by simp, he.symm, hn⟩

end Sys2Proof.Machine
end

