-- ==== Sys2Proof/Tests/Slice0.lean ====
section
/-! SUPPORT. Tests: well-formedness, decoding of words written out from 30_encoding.md rule R80, one step each of the
vectors of 95_test_vectors.md (named in the comments), and a witness for the hypotheses of every statement. -/

namespace Sys2Proof.Tests

open Sys2Proof.Machine

/-! ## Well-formedness (R85) -/

theorem test_wf_refuses_a_service_vector : (Instr.trapOther 0x20#8).wf = false := by decide
theorem test_wf_refuses_the_last_service_vector : (Instr.trapOther 0x25#8).wf = false := by decide
theorem test_wf_accepts_the_next_vector : (Instr.trapOther 0x26#8).wf = true := by decide

/-! ## Decoding: each constructor's word, bit by bit (R80, R84, R85) -/

theorem test_decode_br : decode 0b0000_101_111111111#16 = .br 0b101#3 0b111111111#9 := by decide
theorem test_decode_addReg : decode 0b0001_000_001_0_00_010#16 = .addReg 0#3 1#3 2#3 := by decide
theorem test_decode_addImm : decode 0b0001_010_110_1_10000#16 = .addImm 2#3 6#3 0b10000#5 := by decide
theorem test_decode_ld : decode 0b0010_001_000000100#16 = .ld 1#3 4#9 := by decide
theorem test_decode_st : decode 0b0011_100_100000000#16 = .st 4#3 0b100000000#9 := by decide
theorem test_decode_jsr : decode 0b0100_1_10000000011#16 = .jsr 0b10000000011#11 := by decide
theorem test_decode_jsrr : decode 0b0100_0_11_011_111111#16 = .jsrr 3#3 := by decide
theorem test_decode_andReg : decode 0b0101_010_000_0_11_001#16 = .andReg 2#3 0#3 1#3 := by decide
theorem test_decode_andImm : decode 0b0101_011_101_1_01111#16 = .andImm 3#3 5#3 15#5 := by decide
theorem test_decode_ldr : decode 0b0110_011_100_100000#16 = .ldr 3#3 4#3 0b100000#6 := by decide
theorem test_decode_str : decode 0b0111_011_100_000101#16 = .str 3#3 4#3 5#6 := by decide
theorem test_decode_rsv8 : decode 0b1000_101010101010#16 = .rsv8 := by decide
theorem test_decode_not : decode 0b1001_100_101_111111#16 = .not 4#3 5#3 := by decide
theorem test_decode_ldi : decode 0b1010_010_111111110#16 = .ldi 2#3 0b111111110#9 := by decide
theorem test_decode_sti : decode 0b1011_010_111111110#16 = .sti 2#3 0b111111110#9 := by decide
theorem test_decode_jmp : decode 0b1100_111_010_111111#16 = .jmp 2#3 := by decide
theorem test_decode_rsv13 : decode 0b1101_111111111111#16 = .rsv13 := by decide
theorem test_decode_lea : decode 0b1110_101_111111111#16 = .lea 5#3 0b111111111#9 := by decide
theorem test_decode_getc : decode 0b1111_0000_00100000#16 = .trapGetc := by decide
theorem test_decode_out : decode 0b1111_1111_00100001#16 = .trapOut := by decide
theorem test_decode_puts : decode 0b1111_0000_00100010#16 = .trapPuts := by decide
theorem test_decode_in : decode 0b1111_0000_00100011#16 = .trapIn := by decide
theorem test_decode_putsp : decode 0b1111_0000_00100100#16 = .trapPutsp := by decide
theorem test_decode_halt : decode 0b1111_0000_00100101#16 = .trapHalt := by decide
theorem test_decode_other : decode 0b1111_0000_00100110#16 = .trapOther 0x26#8 := by decide

/-- The table's numbering of bits: one word, the bits above `nbits` zero. -/
theorem test_decodeTableWord : decodeTableWord 16 0x6720 = some (.ldr 3#3 4#3 0b100000#6) := by decide

/-- Words the spec's examples print are those the encoder makes. -/
theorem test_encode_words :
    [encode (.addReg 0#3 1#3 2#3), encode (.addImm 0#3 1#3 3#5), encode (.not 4#3 5#3), encode (.jmp 7#3),
      encode (.jsrr 3#3), encode (.ldr 3#3 4#3 0b100000#6), encode (.sti 2#3 0b111111110#9), encode .trapHalt] =
    [0x1042#16, 0x1063#16, 0x997F#16, 0xC1C0#16, 0x40C0#16, 0x6720#16, 0xB5FE#16, 0xF025#16] := by decide

/-! ## Small states -/

def withRegs (rs : List (RegIdx × Word)) (s : State) : State := rs.foldl (fun s r => s.setReg r.1 r.2) s
def withCells (cs : List (Word × Word)) (s : State) : State := cs.foldl (fun s c => memWrite c.1 c.2 s) s

/-- The reset state with `pc` at `a`, the word `w` there, and these registers and cells. -/
def place (a w : Word) (rs : List (RegIdx × Word)) (cs : List (Word × Word)) : State :=
  withCells ((a, w) :: cs) (withRegs rs (State.reset.setPc a))

/-- The reset state with string reads that poll, these poll answers, and R0 at the status cell. -/
def pollingStrings (ps : List Bool) : State :=
  withRegs [(0#3, 0xFE00#16)] { State.reset with
    cfg := { defaultConfig with putsReadsViaDevice := true }
    env := { Env.reset with polls := ps, reads := [.byte 0x41#8] } }

def stepped {α : Type} (s : State) (f : State → α) : Option α :=
  match step s with
  | .next t => some (f t)
  | .fault _ => none
  | .refused _ => none

def faulted (s : State) : Option Fault :=
  match step s with
  | .next _ => none
  | .fault f => some f
  | .refused _ => none

/-! ## Operate (95, 2.1) -/

/-- O2 -/
theorem test_addReg_signed_overflow :
    stepped (place 0x3000#16 0x1042#16 [(1#3, 0x7FFF#16), (2#3, 1#16)] []) (fun t => (t.reg 0#3, t.cc, t.pc)) =
      some (0x8000#16, .n, 0x3001#16) := by decide
/-- O4 -/
theorem test_addReg_source_is_destination :
    stepped (place 0x3000#16 0x1241#16 [(1#3, 0x4000#16)] []) (fun t => (t.reg 1#3, t.cc)) =
      some (0x8000#16, .n) := by decide
/-- O6 -/
theorem test_addImm_most_negative :
    stepped (place 0x3000#16 0x1030#16 [(0#3, 0x0010#16)] []) (fun t => (t.reg 0#3, t.cc)) =
      some (0x0000#16, .z) := by decide
/-- S4 -/
theorem test_addImm_wraps :
    stepped (place 0x3000#16 0x1061#16 [(0#3, 0x1234#16), (1#3, 0xFFFF#16)] []) (fun t => (t.reg 0#3, t.cc)) =
      some (0x0000#16, .z) := by decide
/-- O9 -/
theorem test_andReg :
    stepped (place 0x3000#16 0x5401#16 [(0#3, 0x00F0#16), (1#3, 0x0F30#16)] []) (fun t => (t.reg 2#3, t.cc)) =
      some (0x0030#16, .p) := by decide
/-- O11 -/
theorem test_andImm_extends_the_sign :
    stepped (place 0x3000#16 0x527F#16 [(1#3, 0x8001#16)] []) (fun t => (t.reg 1#3, t.cc)) =
      some (0x8001#16, .n) := by decide
/-- O14 -/
theorem test_not :
    stepped (place 0x3000#16 0x997F#16 [(5#3, 0x00FF#16)] []) (fun t => (t.reg 4#3, t.cc)) =
      some (0xFF00#16, .n) := by decide
/-- O16 -/
theorem test_not_to_zero :
    stepped (place 0x3000#16 0x997F#16 [(5#3, 0xFFFF#16)] []) (fun t => (t.reg 4#3, t.cc)) =
      some (0x0000#16, .z) := by decide

/-! ## Control (95, 2.2) -/

/-- B1: `cc` is Z at reset. -/
theorem test_br_not_taken : stepped (place 0x3000#16 0x0202#16 [] []) (·.pc) = some 0x3001#16 := by decide
/-- B8 -/
theorem test_br_wraps : stepped (place 0x0000#16 0x0FFE#16 [] []) (·.pc) = some 0xFFFF#16 := by decide
/-- B9 -/
theorem test_jmp : stepped (place 0x3000#16 0xC080#16 [(2#3, 0x4000#16)] []) (·.pc) = some 0x4000#16 := by decide
/-- B13 -/
theorem test_jsr_most_negative :
    stepped (place 0x3000#16 0x4C00#16 [] []) (fun t => (t.reg 7#3, t.pc)) = some (0x3001#16, 0x2C01#16) := by decide
/-- B15 -/
theorem test_jsrr :
    stepped (place 0x3000#16 0x40C0#16 [(3#3, 0x5000#16)] []) (fun t => (t.reg 7#3, t.pc)) =
      some (0x3001#16, 0x5000#16) := by decide
/-- B16 -/
theorem test_jsrr_r7_falls_through :
    stepped (place 0x3000#16 0x41C0#16 [(7#3, 0x1234#16)] []) (fun t => (t.reg 7#3, t.pc)) =
      some (0x3001#16, 0x3001#16) := by decide
/-- F1 -/
theorem test_rsv8_aborts :
    faulted (place 0x3000#16 0x8000#16 [] []) =
      some (.aborted (.reservedOpcode 8#4 0x8000#16 0x3000#16) []) := by decide
/-- F2 -/
theorem test_rsv13_aborts :
    faulted (place 0x3000#16 0xDFFF#16 [] []) =
      some (.aborted (.reservedOpcode 13#4 0xDFFF#16 0x3000#16) []) := by decide

/-! ## Load and store (95, 2.3) -/

/-- M1 -/
theorem test_ld :
    stepped (place 0x3000#16 0x2204#16 [] [(0x3005#16, 0xFFFB#16)]) (fun t => (t.reg 1#3, t.cc)) =
      some (0xFFFB#16, .n) := by decide
/-- M2 -/
theorem test_ld_own_word :
    stepped (place 0x3001#16 0x23FF#16 [] []) (fun t => (t.reg 1#3, t.cc)) = some (0x23FF#16, .p) := by decide
/-- M3 -/
theorem test_ldi :
    stepped (place 0x3010#16 0xA5FE#16 [] [(0x300F#16, 0x4000#16), (0x4000#16, 0x8001#16)])
      (fun t => (t.reg 2#3, t.cc)) = some (0x8001#16, .n) := by decide
/-- M4 -/
theorem test_ldi_polls :
    stepped { place 0x3000#16 0xA001#16 [] [(0x3002#16, 0xFE00#16)] with
        env := { stops := [], polls := [true], reads := [.byte 0x41#8], waits := [], draws := 0 } }
      (fun t => (t.reg 0#3, t.cc, storeRead 0xFE00#16 t, storeRead 0xFE02#16 t)) =
      some (0x8000#16, .n, 0x8000#16, 0x0041#16) := by decide
/-- M9 -/
theorem test_ldr_wraps :
    stepped (place 0x3000#16 0x6701#16 [(4#3, 0xFFFF#16)] [(0x0000#16, 0x0042#16)]) (fun t => (t.reg 3#3, t.cc)) =
      some (0x0042#16, .p) := by decide
/-- M10 -/
theorem test_ldr_base_is_destination :
    stepped (place 0x3000#16 0x6240#16 [(1#3, 0x4000#16)] [(0x4000#16, 0x00AB#16)]) (fun t => (t.reg 1#3, t.cc)) =
      some (0x00AB#16, .p) := by decide
/-- M13 -/
theorem test_lea_at_the_top :
    stepped (place 0xFFFF#16 0xE000#16 [] []) (fun t => (t.reg 0#3, t.cc, t.pc)) =
      some (0x0000#16, .z, 0x0000#16) := by decide
/-- M14 -/
theorem test_lea_sets_n :
    stepped (place 0x7FFF#16 0xE000#16 [] []) (fun t => (t.reg 0#3, t.cc)) = some (0x8000#16, .n) := by decide
/-- M16 -/
theorem test_st :
    stepped (place 0x3000#16 0x3204#16 [(1#3, 0x1234#16)] []) (fun t => (storeRead 0x3005#16 t, t.cc)) =
      some (0x1234#16, .z) := by decide
/-- M17 -/
theorem test_st_to_kbsr_does_not_poll :
    stepped (place 0xFDFF#16 0x3200#16 [(1#3, 0x1234#16)] []) (fun t => (storeRead 0xFE00#16 t, t.env)) =
      some (0x1234#16, Env.reset) := by decide
/-- M18 -/
theorem test_sti :
    stepped (place 0x3010#16 0xB5FE#16 [(2#3, 0x00AA#16)] [(0x300F#16, 0x4000#16)])
      (fun t => storeRead 0x4000#16 t) = some 0x00AA#16 := by decide
/-- M19 -/
theorem test_str :
    stepped (place 0x3000#16 0x7705#16 [(3#3, 0x0007#16), (4#3, 0x4000#16)] []) (fun t => storeRead 0x4005#16 t) =
      some 0x0007#16 := by decide
/-- M20 -/
theorem test_str_stores_its_base :
    stepped (place 0x3000#16 0x7900#16 [(4#3, 0x4000#16)] []) (fun t => storeRead 0x4000#16 t) =
      some 0x4000#16 := by decide

/-! ## TRAP (95, 2.4) -/

def withReads (rs : List InAnswer) (s : State) : State := { s with env := { s.env with reads := rs } }

/-- T1 -/
theorem test_getc :
    stepped (withReads [.byte 0x61#8] (place 0x3000#16 0xF020#16 [] []))
      (fun t => (t.reg 0#3, t.cc, t.reg 7#3, t.out)) = some (0x0061#16, .p, 0x3001#16, []) := by decide
/-- T3 -/
theorem test_getc_eof :
    stepped (withReads [.eof] (place 0x3000#16 0xF020#16 [] [])) (fun t => (t.reg 0#3, t.cc)) =
      some (0xFFFF#16, .n) := by decide
/-- T4 -/
theorem test_out :
    stepped (place 0x3000#16 0xF021#16 [(0#3, 0x1241#16)] []) (fun t => (t.out, t.reg 7#3)) =
      some ([0x41#8], 0x3001#16) := by decide
/-- T6 -/
theorem test_puts_ends_at_a_zero_word_only :
    stepped (place 0x3000#16 0xF022#16 [(0#3, 0x4000#16)] [(0x4000#16, 0x0100#16), (0x4001#16, 0x0041#16)]) (·.out) =
      some [0x00#8, 0x41#8] := by decide
/-- T8 -/
theorem test_puts_wraps :
    stepped (place 0x3000#16 0xF022#16 [(0#3, 0xFFFF#16)] [(0xFFFF#16, 0x0041#16), (0x0000#16, 0x0042#16)]) (·.out) =
      some [0x41#8, 0x42#8] := by decide
/-- R54, R173: read through the device, the status cell gives 0x8000, whose low byte is emitted, and then the zero at
0xFE01 ends the string. -/
theorem test_puts_polls_via_device :
    stepped (withCells [(0x3000#16, 0xF022#16)] (pollingStrings [true]))
      (fun t => (t.out, storeRead 0xFE02#16 t)) = some ([0x00#8], 0x0041#16) := by decide
/-- T9: "Enter a character: 7" is 20 bytes, the last the echo 0x37. -/
theorem test_in :
    stepped (withReads [.byte 0x37#8] (place 0x3000#16 0xF023#16 [] []))
      (fun t => (t.reg 0#3, t.cc, t.out.length, t.out.take 5, t.out.drop 18)) =
      some (0x0037#16, .p, 20, [0x45#8, 0x6E#8, 0x74#8, 0x65#8, 0x72#8], [0x20#8, 0x37#8]) := by decide
/-- T10 -/
theorem test_putsp :
    stepped (place 0x3000#16 0xF024#16 [(0#3, 0x4000#16)] [(0x4000#16, 0x6548#16), (0x4001#16, 0x006C#16)]) (·.out) =
      some [0x48#8, 0x65#8, 0x6C#8] := by decide
/-- T11 -/
theorem test_putsp_low_byte_may_be_zero :
    stepped (place 0x3000#16 0xF024#16 [(0#3, 0x4000#16)] [(0x4000#16, 0x4100#16)]) (·.out) =
      some [0x00#8, 0x41#8] := by decide
/-- T12 -/
theorem test_halt :
    stepped (place 0x3000#16 0xF025#16 [] []) (fun t => (t.run, t.out, t.reg 7#3, t.pc)) =
      some (.halted, [0x48#8, 0x41#8, 0x4C#8, 0x54#8, 0x0A#8], 0x3001#16, 0x3001#16) := by decide
/-- T14, Abort -/
theorem test_other_aborts :
    faulted (place 0x3000#16 0xF026#16 [] []) =
      some (.aborted (.unknownTrap 0x26#8 0xF026#16 0x3000#16) []) := by decide
/-- T14, NoOp -/
theorem test_other_no_op :
    stepped { place 0x3000#16 0xF026#16 [] [] with cfg := { defaultConfig with unknownTrap := .noOp } }
      (fun t => (t.reg 7#3, t.pc, t.run)) = some (0x3001#16, 0x3001#16, .running) := by decide

/-! ## The step, the keyboard and the loader (95, 2.5 to 2.7) -/

/-- F5: the fetch polls, and what it executes is the status. -/
theorem test_fetch_from_kbsr :
    faulted { State.reset with
        pc := 0xFE00#16
        env := { stops := [], polls := [true], reads := [.byte 0x41#8], waits := [], draws := 0 } } =
      some (.aborted (.reservedOpcode 8#4 0x8000#16 0xFE00#16) []) := by decide
/-- R208: the stop request is taken before the fetch. -/
theorem test_stop_request :
    stepped { State.reset with env := { stops := [true], polls := [], reads := [], waits := [], draws := 0 } }
      (fun t => (t.run, t.pc)) = some (.stopped, 0x3000#16) := by decide
/-- R110: a halted machine takes no step. -/
theorem test_halted_stays : stepped (halt State.reset) (fun t => (t.run, t.pc)) = some (.halted, 0x3000#16) := by decide

def booted {α : Type} (images : List (List Byte)) (f : State → α) : Option α :=
  match boot defaultConfig Env.reset (images.map some) with
  | .ok t => some (f t)
  | .error _ => none

/-- L-3 -/
theorem test_image_does_not_wrap :
    booted [[0xFF#8, 0xFF#8, 0x11#8, 0x11#8, 0x22#8, 0x22#8]]
      (fun t => (storeRead 0xFFFF#16 t, storeRead 0x0000#16 t)) = some (0x1111#16, 0x0000#16) := by decide
/-- L-4 -/
theorem test_later_image_wins :
    booted [[0x30#8, 0x00#8, 0x11#8, 0x11#8, 0x22#8, 0x22#8], [0x30#8, 0x01#8, 0x33#8, 0x33#8]]
      (fun t => (storeRead 0x3000#16 t, storeRead 0x3001#16 t, t.pc)) =
      some (0x1111#16, 0x3333#16, 0x3000#16) := by decide
/-- L-5 -/
theorem test_short_image_is_a_load_error :
    (match boot defaultConfig Env.reset [some [0x30#8]] with
      | .ok _ => none
      | .error e => some e) = some (.tooShort 0) := by decide
/-- A write of an unlisted cell's value unlists it, so equal memories are equal data. -/
theorem test_writing_zero_unlists : (memWrite 5#16 0#16 (memWrite 5#16 7#16 State.reset)).mem = [] := by decide

/-! ## Witnesses: states and operands that meet the hypotheses of each statement -/

def witnessEnv : Env :=
  { stops := [true], polls := [true, false], reads := [.byte 0x41#8, .eof], waits := [.answered], draws := 0 }

def withWaits (ws : List WaitEvent) (s : State) : State := { s with env := { s.env with waits := ws } }

theorem witness_EveryStepKeepsTheInvariant :
    (place 0x3000#16 0x3204#16 [(1#3, 0x1234#16)] []).mem.wf ∧ legalConfig State.reset.cfg ∧
      (place 0x3000#16 0x3204#16 [(1#3, 0x1234#16)] []).run = .running ∧
      (stepped (place 0x3000#16 0x3204#16 [(1#3, 0x1234#16)] []) (·.run)).isSome = true := by decide

theorem witness_DecodeOfEncodeIsTheInstruction :
    (Instr.trapOther 0x1F#8).wf = true ∧ (Instr.trapOther 0x26#8).wf = true ∧
      (Instr.jsr 0b10000000000#11).wf = true := by decide

theorem witness_IgnoredBitsHaveNoEffect :
    0x1042#16 &&& ~~~(ignoredBits 0x1042#16) = 0x105A#16 &&& ~~~(ignoredBits 0x1042#16) ∧
    0xC080#16 &&& ~~~(ignoredBits 0xC080#16) = 0xCEBF#16 &&& ~~~(ignoredBits 0xC080#16) := by decide

theorem witness_SetccPicksTheFlagOfTheSignedValue :
    0x0000#16 = 0x0000#16 ∧ (0x8000#16 ≠ 0x0000#16 ∧ (0x8000#16).getLsbD 15 = true) ∧
      (0x7FFF#16 ≠ 0x0000#16 ∧ (0x7FFF#16).getLsbD 15 = false) := by decide

/-- The first word and the last of each match of the decode clauses of the operate statements. -/
theorem witness_decode_clauses_operate :
    (0x1000#16 &&& 0xF020#16 = 0x1000#16 ∧ 0x1FDF#16 &&& 0xF020#16 = 0x1000#16) ∧
    (0x1020#16 &&& 0xF020#16 = 0x1020#16 ∧ 0x1FFF#16 &&& 0xF020#16 = 0x1020#16) ∧
    (0x5000#16 &&& 0xF020#16 = 0x5000#16 ∧ 0x5FDF#16 &&& 0xF020#16 = 0x5000#16) ∧
    (0x5020#16 &&& 0xF020#16 = 0x5020#16 ∧ 0x5FFF#16 &&& 0xF020#16 = 0x5020#16) ∧
    (0x9000#16 &&& 0xF000#16 = 0x9000#16 ∧ 0x9FFF#16 &&& 0xF000#16 = 0x9000#16) := by decide

/-- The first word and the last of each match of the decode clauses of the control statements. -/
theorem witness_decode_clauses_control :
    (0x0000#16 &&& 0xF000#16 = 0x0000#16 ∧ 0x0FFF#16 &&& 0xF000#16 = 0x0000#16) ∧
    (0xC000#16 &&& 0xF000#16 = 0xC000#16 ∧ 0xCFFF#16 &&& 0xF000#16 = 0xC000#16) ∧
    (0x4800#16 &&& 0xF800#16 = 0x4800#16 ∧ 0x4FFF#16 &&& 0xF800#16 = 0x4800#16) ∧
    (0x4000#16 &&& 0xF800#16 = 0x4000#16 ∧ 0x47FF#16 &&& 0xF800#16 = 0x4000#16) ∧
    (0x8000#16 &&& 0xF000#16 = 0x8000#16 ∧ 0x8FFF#16 &&& 0xF000#16 = 0x8000#16) ∧
    (0xD000#16 &&& 0xF000#16 = 0xD000#16 ∧ 0xDFFF#16 &&& 0xF000#16 = 0xD000#16) := by decide

/-- The first word and the last of each match of the decode clauses of the load and store statements. -/
theorem witness_decode_clauses_load_store :
    (0x2000#16 &&& 0xF000#16 = 0x2000#16 ∧ 0x2FFF#16 &&& 0xF000#16 = 0x2000#16) ∧
    (0xA000#16 &&& 0xF000#16 = 0xA000#16 ∧ 0xAFFF#16 &&& 0xF000#16 = 0xA000#16) ∧
    (0x6000#16 &&& 0xF000#16 = 0x6000#16 ∧ 0x6FFF#16 &&& 0xF000#16 = 0x6000#16) ∧
    (0xE000#16 &&& 0xF000#16 = 0xE000#16 ∧ 0xEFFF#16 &&& 0xF000#16 = 0xE000#16) ∧
    (0x3000#16 &&& 0xF000#16 = 0x3000#16 ∧ 0x3FFF#16 &&& 0xF000#16 = 0x3000#16) ∧
    (0xB000#16 &&& 0xF000#16 = 0xB000#16 ∧ 0xBFFF#16 &&& 0xF000#16 = 0xB000#16) ∧
    (0x7000#16 &&& 0xF000#16 = 0x7000#16 ∧ 0x7FFF#16 &&& 0xF000#16 = 0x7000#16) := by decide

/-- The first word and the last of each match of the decode clauses of the trap statements. -/
theorem witness_decode_clauses_trap :
    (0xF020#16 &&& 0xF0FF#16 = 0xF020#16 ∧ 0xFF20#16 &&& 0xF0FF#16 = 0xF020#16) ∧
    (0xF021#16 &&& 0xF0FF#16 = 0xF021#16 ∧ 0xFF21#16 &&& 0xF0FF#16 = 0xF021#16) ∧
    (0xF022#16 &&& 0xF0FF#16 = 0xF022#16 ∧ 0xFF22#16 &&& 0xF0FF#16 = 0xF022#16) ∧
    (0xF023#16 &&& 0xF0FF#16 = 0xF023#16 ∧ 0xFF23#16 &&& 0xF0FF#16 = 0xF023#16) ∧
    (0xF024#16 &&& 0xF0FF#16 = 0xF024#16 ∧ 0xFF24#16 &&& 0xF0FF#16 = 0xF024#16) ∧
    (0xF025#16 &&& 0xF0FF#16 = 0xF025#16 ∧ 0xFF25#16 &&& 0xF0FF#16 = 0xF025#16) := by decide

theorem witness_BranchOnNoFlagIsANoOp :
    (0x01FF#16).extractLsb' 9 7 = 0b0000000#7 ∧ (0x0FFF#16).extractLsb' 9 7 = 0b0000111#7 := by decide

/-- LD, LDI, LDR and STI name the MemRead of the address they compute, away from the status cell and at it. -/
theorem witness_loads :
    (wrap ((State.reset.setPc 0xFE00#16).pc.toNat + (0#9).toInt) = (State.reset.setPc 0xFE00#16).cfg.kbsrAddr) ∧
    (State.reset.cfg.kbsrAddr ∉ [wrap (State.reset.pc.toNat + (0#9).toInt)]) ∧
    (∃ p r : Word × State, p = memRead (wrap (State.reset.pc.toNat + (1#9).toInt)) State.reset ∧
      r = memRead p.1 p.2) ∧
    ∃ p : Word × State, p = memRead (pcRel9 1#9 State.reset) State.reset :=
  ⟨by decide, by decide, ⟨_, _, rfl, rfl⟩, ⟨_, rfl⟩⟩

theorem witness_GetcReadsACharacterIntoR0 :
    ∃ u v, (inWait (withReads [.byte 0x61#8] State.reset)).1 = .answered ∧
      inRead (inWait (withReads [.byte 0x61#8] State.reset)).2 = (.byte 0x61#8, u) ∧
      (inWait (withReads [.eof] State.reset)).1 = .answered ∧
      inRead (inWait (withReads [.eof] State.reset)).2 = (.eof, v) :=
  ⟨_, _, rfl, rfl, rfl, rfl⟩

theorem witness_InPromptsReadsAndEchoes :
    ∃ u v, (inWait (withWaits [.answered] (withReads [.byte 0xFF#8] State.reset))).1 = .answered ∧
      inRead (inWait (withWaits [.answered] (withReads [.byte 0xFF#8] State.reset))).2 = (.byte 0xFF#8, u) ∧
      (inWait (withReads [.eof] State.reset)).1 = .answered ∧
      inRead (inWait (withReads [.eof] State.reset)).2 = (.eof, v) :=
  ⟨_, _, rfl, rfl, rfl, rfl⟩

/-- Cells 0 to n - 1 hold 1. -/
def ones (n : Nat) : Memory := (List.range n).map (fun k => (k, 1#16))

theorem readCell_ones {n a : Nat} : readCell a (ones n) = if a < n then 1#16 else 0#16 := by
  have h : ∀ l : List Nat, readCell a (l.map (fun k => (k, 1#16))) = if a ∈ l then 1#16 else 0#16 := by
    intro l
    induction l with
    | nil => rfl
    | cons k l ih =>
      by_cases hk : k = a
      · simp [readCell, hk]
      · simp [readCell, hk, Ne.symm hk, ih]
  simpa [ones] using h (List.range n)

theorem stringWord_ones {n j : Nat} (hj : j < 65536) :
    stringWord { State.reset with mem := ones n } j = if j < n then 1#16 else 0#16 := by
  have h0 : (State.reset.reg 0#3 + BitVec.ofNat 16 j).toNat = j := by
    have hr : State.reset.reg 0#3 = 0#16 := by decide
    rw [hr, BitVec.zero_add, BitVec.toNat_ofNat]
    exact Nat.mod_eq_of_lt hj
  have h1 : stringWord { State.reset with mem := ones n } j =
      readCell (State.reset.reg 0#3 + BitVec.ofNat 16 j).toNat (ones n) := rfl
  rw [h1, h0, readCell_ones]

/-- The longest string there can be: every word but the last one before R0 is non-zero. -/
theorem stringOfLength_ones {n : Nat} (hn : n < 65536) : stringOfLength { State.reset with mem := ones n } n := by
  refine ⟨hn, fun j hj => ?_, ?_, .inl rfl⟩
  · rw [stringWord_ones (by omega), if_pos hj]
    decide
  · rw [stringWord_ones hn, if_neg (by omega)]

/-- PUTS and PUTSP: strings of no word, of one word, and of the most there are. -/
theorem witness_PutsEmitsUpToTheFirstZeroWord :
    stringOfLength State.reset 0 ∧ stringOfLength (withCells [(0x0000#16, 0x0041#16)] State.reset) 1 ∧
    stringOfLength { State.reset with mem := ones 65535 } 65535 :=
  ⟨by unfold stringOfLength; decide, by unfold stringOfLength; decide, stringOfLength_ones (by omega)⟩

/-- PUTS and PUTSP, read through the device, away from the status cell. -/
theorem witness_string_read_via_device :
    stringOfLength { State.reset with cfg := { defaultConfig with putsReadsViaDevice := true } } 0 := by
  unfold stringOfLength
  decide

theorem storeRead_ones {n : Nat} (a : Word) (h : a.toNat < n) :
    storeRead a { State.reset with mem := ones n } ≠ 0x0000#16 := by
  have h1 : storeRead a { State.reset with mem := ones n } = readCell a.toNat (ones n) := rfl
  rw [h1, readCell_ones, if_pos h]
  decide

/-- PUTS and PUTSP over memory without a zero word. -/
theorem witness_string_without_a_zero_word :
    State.reset.cfg.putsReadsViaDevice = false ∧
      ∀ a, storeRead a { State.reset with mem := ones 65536 } ≠ 0x0000#16 :=
  ⟨rfl, fun a => storeRead_ones a a.isLt⟩

theorem witness_UnlistedTrapFollowsThePolicy :
    (0xF01F#16 &&& 0xF000#16 = 0xF000#16 ∧
      ((0xF01F#16).extractLsb' 0 8).toNat ∉ [0x20, 0x21, 0x22, 0x23, 0x24, 0x25]) ∧
    (0xFF26#16 &&& 0xF000#16 = 0xF000#16 ∧
      ((0xFF26#16).extractLsb' 0 8).toNat ∉ [0x20, 0x21, 0x22, 0x23, 0x24, 0x25]) ∧
    State.reset.cfg.unknownTrap = .abort ∧
    ({ defaultConfig with unknownTrap := .noOp } : Config).unknownTrap = .noOp := by decide

theorem witness_BlockedReadEndsOnAStopRequestOrNever :
    (inWait (withWaits [.stopRequested] State.reset)).1 = .stopRequested ∧
      (inWait (withWaits [.neverAnswered] State.reset)).1 = .neverAnswered := by decide

theorem witness_StringRoutinesCompleteWhileAWordIsZero :
    (State.reset.cfg.putsReadsViaDevice = false ∧ storeRead 0x4000#16 State.reset = 0x0000#16) ∧
    (0x4000#16 ≠ (pollingStrings []).cfg.kbsrAddr ∧ 0x4000#16 ≠ (pollingStrings []).cfg.kbdrAddr ∧
      storeRead 0x4000#16 (pollingStrings []) = 0x0000#16) ∧
    (pollingStrings [true, false]).cfg.putsReadsViaDevice = true ∧
    false ∈ (pollingStrings [true, false]).env.polls ∧
    (withReads [.byte 0x41#8, .byte 0x00#8] (pollingStrings [])).cfg.putsReadsViaDevice = true ∧
    InAnswer.byte 0x00#8 ∈ (withReads [.byte 0x41#8, .byte 0x00#8] (pollingStrings [])).env.reads ∧
    inputWord (pollingStrings []).cfg (.byte 0x00#8) = 0x0000#16 := by decide

/-- PUTS and PUTSP: a next state, for the clause on the loop. -/
theorem witness_string_routines_answer :
    (∃ t, exec .trapPuts State.reset = .next t) ∧ ∃ t, exec .trapPutsp State.reset = .next t :=
  ⟨⟨_, rfl⟩, ⟨_, rfl⟩⟩

theorem witness_StepRunsTheDecodedInstruction :
    (∃ q, State.reset.run = .running ∧ sampleStop State.reset = (false, q)) ∧
    (∀ r, State.reset.run ≠ .aborted r) ∧
    (raiseFault (.reservedOpcode 8#4 0x8000#16 0x3000#16) State.reset).run =
      .aborted (.reservedOpcode 8#4 0x8000#16 0x3000#16) :=
  ⟨⟨_, rfl, rfl⟩, nofun, rfl⟩

theorem witness_StopRequestIsTakenBeforeTheFetch :
    ∃ q, ({ State.reset with env := witnessEnv } : State).run = .running ∧
      sampleStop { State.reset with env := witnessEnv } = (true, q) :=
  ⟨_, rfl, rfl⟩

theorem witness_TerminalStatesTakeNoStepAndReportTheirStatus :
    (halt State.reset).run = .halted ∧ (stopRun State.reset).run = .stopped ∧
    (raiseFault (.unknownTrap 0x26#8 0xF026#16 0x3000#16) State.reset).run =
      .aborted (.unknownTrap 0x26#8 0xF026#16 0x3000#16) ∧
    legalConfig (halt State.reset).cfg ∧ exitStatus (halt State.reset) = exitStatus (halt (State.reset.setPc 5#16)) := by
  decide

theorem witness_FetchReadsAtPcThenIncrements :
    State.reset.pc ≠ State.reset.cfg.kbsrAddr ∧ (State.reset.setPc 0xFFFF#16).pc ≠ State.reset.cfg.kbsrAddr := by decide

theorem witness_FetchFromTheStatusCellPolls :
    State.reset.cfg.kbsrAddr ≠ State.reset.cfg.kbdrAddr ∧
    (State.reset.setPc 0xFE00#16).pc = (State.reset.setPc 0xFE00#16).cfg.kbsrAddr ∧
    (inPoll { State.reset.setPc 0xFE00#16 with env := witnessEnv }).1 = true ∧
    (inPoll { State.reset.setPc 0xFE00#16 with env := { witnessEnv with polls := [false] } }).1 = false := by decide

theorem witness_NextFetchSeesTheStoredWord :
    State.reset.pc ≠ State.reset.cfg.kbsrAddr ∧ pcRel9 0#9 State.reset = State.reset.pc ∧
    (memRead (pcRel9 1#9 (withCells [(0x3001#16, 0x3000#16)] State.reset))
      (withCells [(0x3001#16, 0x3000#16)] State.reset)).1 = State.reset.pc ∧
    baseOff6 4#3 0#6 (withRegs [(4#3, 0x3000#16)] State.reset) = State.reset.pc := by decide

theorem witness_MemReadFollowsItsContract :
    0x3000#16 ≠ State.reset.cfg.kbsrAddr ∧ State.reset.cfg.kbdrAddr ≠ State.reset.cfg.kbsrAddr ∧
    (∃ u, inPoll { State.reset with env := { witnessEnv with polls := [false] } } = (false, u)) ∧
    ∃ u v c, inPoll { State.reset with env := witnessEnv } = (true, u) ∧ inRead u = (.byte 0x41#8, v) ∧
      inRead v = (.eof, c) :=
  ⟨by decide, by decide, ⟨_, rfl⟩, ⟨_, _, _, rfl, rfl, rfl⟩⟩

theorem witness_MemWriteIsAnUnconditionalStore :
    0xFE02#16 ≠ State.reset.cfg.kbsrAddr ∧ 0xFDFF#16 ≠ State.reset.cfg.kbsrAddr ∧
      State.reset.cfg.kbsrAddr ≠ State.reset.cfg.kbdrAddr := by decide

theorem witness_CanonicalMemoriesThatReadAlikeAreEqual :
    Memory.wf [(5, 7#16)] ∧ Memory.wf (writeCell 5 7#16 []) ∧
      ∀ a < memWords, readCell a [(5, 7#16)] = readCell a (writeCell 5 7#16 []) :=
  ⟨by decide, by decide, fun _ _ => rfl⟩

theorem witness_ImageWordsAreLoadedFromTheOrigin :
    ([] : List Byte).length ≤ 1 ∧ [0x56#8].length ≤ 1 ∧
    (0 < [0x1111#16, 0x2222#16].length ∧ (0xFFFF#16).toNat + 0 < 65536) ∧
    ((0xFFFE#16).toNat < (0xFFFF#16).toNat ∨ (0xFFFF#16).toNat + 2 ≤ (0xFFFE#16).toNat) ∧
    ((0x3002#16).toNat < (0x3000#16).toNat ∨ (0x3000#16).toNat + 2 ≤ (0x3002#16).toNat) := by decide

theorem witness_BootLoadsTheImagesInOrder :
    (∀ b ∈ ([[0x30#8, 0x00#8]] : List (List Byte)), 2 ≤ b.length) ∧ ([] : List Byte).length < 2 ∧ [0x30#8].length < 2 ∧
      ([[0x30#8, 0x00#8]] : List (List Byte)) ≠ [] := by decide

/-- One next state each for the statements about any instruction: a table row, a definer, a non-definer, a reader of
input, and the instructions the premises set apart. -/
theorem witness_whole_machine_rules :
    (∃ t, exec (.lea 2#3 1#9) State.reset = .next t) ∧ 0#3 ∉ regWrites (.lea 2#3 1#9) ∧
    definedReg (.lea 2#3 1#9) = some 2#3 ∧ readsInput (.lea 2#3 1#9) = false ∧
    readsMemory (.lea 2#3 1#9) = false ∧ writesPc (.lea 2#3 1#9) = false ∧ emitsOutput (.lea 2#3 1#9) = false ∧
    definedReg .trapGetc = some 0#3 ∧ readsInput .trapGetc = true ∧
    (inWait (withReads [.byte 0x61#8] State.reset)).1 = .answered ∧
    (∃ t, exec .trapGetc (withReads [.byte 0x61#8] State.reset) = .next t) :=
  ⟨⟨_, rfl⟩, by decide, rfl, rfl, rfl, rfl, rfl, rfl, rfl, rfl, ⟨_, rfl⟩⟩

theorem witness_OnlyDefinersWriteCcAndOnlyBrReadsIt :
    definedReg (.st 1#3 4#9) = none ∧ (∀ nzp off, Instr.st 1#3 4#9 ≠ .br nzp off) ∧
      ∃ t, exec (.st 1#3 4#9) State.reset = .next t :=
  ⟨rfl, nofun, ⟨_, rfl⟩⟩

/-- A cell away from the store; and for a reading instruction a cell that is neither keyboard cell. -/
theorem witness_OnlyStoresAndPollsChangeMemory :
    0x3003#16 ∉ storedCells (.st 1#3 4#9) State.reset ∧ readsMemory (.st 1#3 4#9) = false ∧
    (∃ t, exec (.st 1#3 4#9) State.reset = .next t) ∧
    0x0000#16 ∉ storedCells (.ld 1#3 4#9) State.reset ∧ readsMemory (.ld 1#3 4#9) = true ∧
    0x0000#16 ≠ State.reset.cfg.kbsrAddr ∧ 0x0000#16 ≠ State.reset.cfg.kbdrAddr ∧
    ∃ t, exec (.ld 1#3 4#9) State.reset = .next t :=
  ⟨by decide, rfl, ⟨_, rfl⟩, by decide, rfl, by decide, by decide, ⟨_, rfl⟩⟩

theorem witness_steps_of_the_whole_machine_rules :
    (stepped (place 0x3000#16 0xF021#16 [] []) (·.out)).isSome = true ∧
      (∃ t, exec .trapHalt State.reset = .next t) :=
  ⟨by decide, ⟨_, rfl⟩⟩

theorem witness_InstructionRegisterIsInvisible :
    Instr.trapPuts ≠ .rsv8 ∧ Instr.trapPuts ≠ .rsv13 ∧ (∀ k, Instr.trapPuts ≠ .trapOther k) ∧
      ∃ t, exec .trapPuts State.reset = .next t :=
  ⟨by decide, by decide, nofun, ⟨_, rfl⟩⟩

end Sys2Proof.Tests
end

section
/-! PROOFS. Sign and zero extension (00_scope.md rule R11) -/

namespace Sys2Proof.Machine

/-- R11's sign rule at every field width. -/
theorem sext_eq_ite_or_mask {n : Nat} (f : BitVec n) :
    sext f = if f.getLsbD (n - 1) then f.setWidth 16 ||| (0xFFFF#16 <<< n) else f.setWidth 16 := by
  unfold sext
  split
  next htop =>
    have hmsb : f.msb = true := by rw [BitVec.msb_eq_getLsbD_last, htop]
    have hmask : ∀ (k : Nat) (hk : k < 16), (0xFFFF#16)[k] = true := by decide
    ext i hi
    by_cases hin : i < n
    · simp [BitVec.getElem_signExtend, hin]
    · simp [BitVec.getElem_signExtend, hin, hmsb, hmask]
  next htop =>
    have hmsb : f.msb = false := by rw [BitVec.msb_eq_getLsbD_last, Bool.eq_false_iff]; exact htop
    exact BitVec.signExtend_eq_setWidth_of_msb_false hmsb

theorem zext16_high_byte (b : Byte) : (zext16 b).extractLsb' 8 8 = 0x00#8 := by
  ext i hi
  simp [zext16]

theorem zext16_low_byte (b : Byte) : (zext16 b).extractLsb' 0 8 = b :=
  calc (zext16 b).extractLsb' 0 8
    _ = b.extractLsb' 0 8 := BitVec.extractLsb'_setWidth_of_le (by decide)
    _ = b := BitVec.extractLsb'_eq_self

/-- Settles O9: the rule of every width, at the widths of the fields; and the two bytes of `zext16`. -/
theorem signExtensionFollowsTheRule : Obligations.SignExtensionFollowsTheRule :=
  ⟨sext_eq_ite_or_mask, sext_eq_ite_or_mask, sext_eq_ite_or_mask, sext_eq_ite_or_mask,
    fun b => ⟨zext16_high_byte b, zext16_low_byte b⟩⟩

end Sys2Proof.Machine
end

section
/-! PROOFS. The condition code: who sets it, and that nothing but BR reads it (10_state.md rules R27 and R28) -/

namespace Sys2Proof.Machine

/-! ## A register-defining instruction ends with `writeDest` (R27) -/

/-- How a wait ends is the environment's alone. -/
theorem inWait_fst_congr {s t : State} (h : t.env = s.env) : (inWait t).1 = (inWait s).1 := by
  unfold inWait
  rw [h]
  cases s.env.waits <;> rfl

/-- A blocking read that is answered runs its continuation on the answer. -/
theorem blockingRead_answered {s t : State} {k : InAnswer → State → State} (hw : (inWait s).1 = .answered)
    (h : blockingRead s k = .next t) : ∃ a u, t = k a u := by
  rcases blockingRead_cases s k with ⟨-, he⟩ | ⟨hs, -⟩ | ⟨hn, -⟩
  · exact ⟨_, _, Host.Outcome.next.inj (h.symm.trans he)⟩
  · simp [hw] at hs
  · simp [hw] at hn

/-- The last thing a register-defining instruction does is the write of its destination, with `setcc`. -/
theorem exec_eq_writeDest_of_definer {i : Instr} {r : RegIdx} {s t : State} (hd : definedReg i = some r)
    (hw : readsInput i = true → (inWait s).1 = .answered) (h : exec i s = .next t) :
    ∃ v u, t = writeDest r v u := by
  cases i with
  | addReg | addImm | andReg | andImm | not | ld | ldi | ldr | lea =>
    cases hd
    exact ⟨_, _, (Host.Outcome.next.inj h).symm⟩
  | trapGetc =>
    cases hd
    simp only [exec, execTrapGetc] at h
    obtain ⟨a, u, rfl⟩ := blockingRead_answered ((inWait_fst_congr (saveReturn_env s)).trans (hw rfl)) h
    exact ⟨_, _, rfl⟩
  | trapIn =>
    cases hd
    simp only [exec, execTrapIn] at h
    have henv : (outBytes s.cfg.inPrompt (saveReturn s)).env = s.env := by simp
    obtain ⟨a, u, rfl⟩ := blockingRead_answered ((inWait_fst_congr henv).trans (hw rfl)) h
    exact ⟨_, _, rfl⟩
  | br | jmp | st | sti | str | jsr | jsrr | trapOut | trapPuts | trapPutsp | trapHalt | trapOther | rsv8 | rsv13 =>
    cases hd

/-- Settles O50: such an instruction ends with `writeDest`, which leaves `cc` at the flag of what it wrote. -/
theorem definingInstructionsSetCcFromTheirResult : Obligations.DefiningInstructionsSetCcFromTheirResult := by
  intro i r s t hd hw h
  obtain ⟨v, u, rfl⟩ := exec_eq_writeDest_of_definer hd hw h
  simpa [reg_writeDest] using ccOf_matches v

/-! ## The operations do not read `cc` (R28)

Every operation an instruction other than BR is made of carries `withCc c` through and answers the same values, but for
`setcc`, which overwrites it. -/

/-- The same state under another condition code. -/
def State.withCc (c : CC) (s : State) : State := { s with cc := c }

theorem withCc_self (s : State) : s.withCc s.cc = s := rfl
@[simp] theorem withCc_cc (c : CC) (s : State) : (s.withCc c).cc = c := rfl
@[simp] theorem withCc_cfg (c : CC) (s : State) : (s.withCc c).cfg = s.cfg := rfl
@[simp] theorem reg_withCc (r : RegIdx) (c : CC) (s : State) : (s.withCc c).reg r = s.reg r := rfl
@[simp] theorem pcRel9_withCc (off : BitVec 9) (c : CC) (s : State) : pcRel9 off (s.withCc c) = pcRel9 off s := rfl
@[simp] theorem baseOff6_withCc (base : RegIdx) (off : BitVec 6) (c : CC) (s : State) :
    baseOff6 base off (s.withCc c) = baseOff6 base off s := rfl
@[simp] theorem storeRead_withCc (a : Word) (c : CC) (s : State) : storeRead a (s.withCc c) = storeRead a s := rfl
@[simp] theorem memWrite_withCc (a v : Word) (c : CC) (s : State) :
    memWrite a v (s.withCc c) = (memWrite a v s).withCc c := rfl
@[simp] theorem busWrite_withCc (a v : Word) (c : CC) (s : State) :
    busWrite a v (s.withCc c) = (busWrite a v s).withCc c := rfl
@[simp] theorem outBytes_withCc (bs : List Byte) (c : CC) (s : State) :
    outBytes bs (s.withCc c) = (outBytes bs s).withCc c := rfl
@[simp] theorem stopRun_withCc (c : CC) (s : State) : stopRun (s.withCc c) = (stopRun s).withCc c := rfl

/-- R27: a load overwrites `cc`. -/
@[simp] theorem loadInto_withCc (dr : RegIdx) (w : Word) (c : CC) (s : State) :
    loadInto dr (w, s.withCc c) = loadInto dr (w, s) := rfl

@[simp] theorem inPoll_withCc (c : CC) (s : State) : inPoll (s.withCc c) = ((inPoll s).1, (inPoll s).2.withCc c) := by
  unfold inPoll State.withCc
  cases s.env.polls <;> rfl

@[simp] theorem inRead_withCc (c : CC) (s : State) : inRead (s.withCc c) = ((inRead s).1, (inRead s).2.withCc c) := by
  unfold inRead State.withCc
  cases s.env.reads <;> rfl

@[simp] theorem inWait_withCc (c : CC) (s : State) : inWait (s.withCc c) = ((inWait s).1, (inWait s).2.withCc c) := by
  unfold inWait State.withCc
  cases s.env.waits <;> rfl

@[simp] theorem pollKeyboard_withCc (c : CC) (s : State) :
    pollKeyboard (s.withCc c) = (pollKeyboard s).withCc c := by
  simp only [pollKeyboard, inPoll_withCc, inRead_withCc, memWrite_withCc, withCc_cfg]
  split <;> rfl

@[simp] theorem memRead_withCc (a : Word) (c : CC) (s : State) :
    memRead a (s.withCc c) = ((memRead a s).1, (memRead a s).2.withCc c) := by
  simp only [memRead, withCc_cfg, pollKeyboard_withCc, storeRead_withCc]
  split <;> rfl

theorem busRead_withCc (k : ReadKind) (a : Word) (c : CC) (s : State) :
    busRead k a (s.withCc c) = ((busRead k a s).1, (busRead k a s).2.withCc c) := by
  cases k with
  | fetch | read => exact memRead_withCc a c s
  | readRaw => rfl

theorem stringRead_withCc (a : Word) (c : CC) (s : State) :
    stringRead a (s.withCc c) = ((stringRead a s).1, (stringRead a s).2.withCc c) :=
  busRead_withCc _ a c s

theorem emitString_withCc (chars : Word → List Byte) (c : CC) (fuel : Nat) (a : Word) (s : State) :
    emitString chars fuel a (s.withCc c) = (emitString chars fuel a s).map (State.withCc c) := by
  induction fuel generalizing a s with
  | zero => rfl
  | succ fuel ih =>
    simp only [emitString, stringRead_withCc, outBytes_withCc, ih]
    split <;> rfl

theorem scriptedString_withCc (chars : Word → List Byte) (c : CC) (s : State) :
    scriptedString chars (s.withCc c) = (scriptedString chars s).map (State.withCc c) :=
  emitString_withCc chars c _ _ s

theorem suppliedString_withCc (chars : Word → List Byte) (c : CC) (s : State) :
    suppliedString chars (s.withCc c) = (suppliedString chars s).map (State.withCc c) := by
  have hsupply : supplyPolls (furtherPolls (s.withCc c)) (s.withCc c) =
      (supplyPolls (furtherPolls s) s).withCc c := rfl
  simp only [suppliedString, withCc_cfg, hsupply, scriptedString_withCc]
  split
  · rw [Option.map_map, Option.map_map]
    rfl
  · rfl

theorem stringEnd_withCc (chars : Word → List Byte) (c : CC) (s : State) :
    stringEnd chars (s.withCc c) = (stringEnd chars s).map (State.withCc c) := by
  unfold stringEnd
  rw [scriptedString_withCc, suppliedString_withCc]
  cases scriptedString chars s <;> rfl

theorem putString_withCc {chars : Word → List Byte} {s t : State} (c : CC) (h : putString chars s = .next t) :
    putString chars (s.withCc c) = .next (t.withCc c) := by
  unfold putString at h ⊢
  rw [stringEnd_withCc]
  cases he : stringEnd chars s with
  | none => simp [he] at h
  | some u =>
    rw [he] at h
    obtain rfl := Host.Outcome.next.inj h
    rfl

/-- A blocking read whose continuation overwrites `cc` ends in the same state if it is answered, and carries `cc`
through if it is stopped. -/
theorem blockingRead_withCc {s t : State} {k : InAnswer → State → State} (c : CC)
    (hk : ∀ a u, k a (u.withCc c) = k a u) (h : blockingRead s k = .next t) :
    blockingRead (s.withCc c) k = .next t ∨ blockingRead (s.withCc c) k = .next (t.withCc c) := by
  have hrun := blockingRead_cases (s.withCc c) k
  simp only [inWait_withCc, inRead_withCc, hk] at hrun
  rcases blockingRead_cases s k with ⟨hw, he⟩ | ⟨hw, he⟩ | ⟨hw, he⟩
  · left
    simpa [hw, ← he, h] using hrun
  · right
    obtain rfl := Host.Outcome.next.inj (he.symm.trans h)
    simpa [hw] using hrun
  · simp [he] at h

/-! ## The instructions under another `cc` -/

/-- An instruction that neither defines a register nor branches on `cc` carries it through. -/
theorem exec_withCc_of_nondefiner {i : Instr} {s t : State} (c : CC) (hd : definedReg i = none)
    (hbr : ∀ nzp off, i ≠ .br nzp off) (h : exec i s = .next t) : exec i (s.withCc c) = .next (t.withCc c) := by
  cases i with
  | br nzp off => exact absurd rfl (hbr nzp off)
  | jmp | jsr | jsrr | st | str | rsv8 | rsv13 | trapOut | trapHalt =>
    obtain rfl := Host.Outcome.next.inj h
    rfl
  | sti sr off =>
    obtain rfl := Host.Outcome.next.inj h
    simp [exec, execSti]
  | trapPuts | trapPutsp => exact putString_withCc c h
  | trapOther v =>
    simp only [exec, execTrapOther, withCc_cfg] at h ⊢
    cases hp : s.cfg.unknownTrap with
    | abort | noOp =>
      rw [hp] at h
      obtain rfl := Host.Outcome.next.inj h
      rfl
  | addReg | addImm | andReg | andImm | not | ld | ldi | ldr | lea | trapGetc | trapIn => cases hd

/-- A register-defining instruction overwrites `cc`, or, where its read is stopped, carries it through. -/
theorem exec_withCc_of_definer {i : Instr} {r : RegIdx} {s t : State} (c : CC) (hd : definedReg i = some r)
    (h : exec i s = .next t) : exec i (s.withCc c) = .next t ∨ exec i (s.withCc c) = .next (t.withCc c) := by
  cases i with
  | addReg | addImm | andReg | andImm | not | lea => exact .inl h
  | ld | ldi | ldr =>
    obtain rfl := Host.Outcome.next.inj h
    simp [exec, execLd, execLdi, execLdr]
  | trapGetc | trapIn =>
    simp only [exec, execTrapGetc, execTrapIn] at h ⊢
    exact blockingRead_withCc c (fun _ _ => rfl) h
  | br | jmp | st | sti | str | jsr | jsrr | trapOut | trapPuts | trapPutsp | trapHalt | trapOther | rsv8 | rsv13 =>
    cases hd

/-- BR may change `pc` alone. -/
theorem execBr_cc {nzp : BitVec 3} {off : BitVec 9} {s t : State} (h : execBr nzp off s = .next t) : t.cc = s.cc := by
  obtain rfl := Host.Outcome.next.inj h
  split <;> rfl

/-- A non-definer keeps `cc`: BR at sight, any other since it carries even the state's own `cc` through. -/
theorem exec_cc_of_nondefiner {i : Instr} {s t : State} (hd : definedReg i = none) (h : exec i s = .next t) :
    t.cc = s.cc := by
  by_cases hbr : ∃ nzp off, i = .br nzp off
  · obtain ⟨nzp, off, rfl⟩ := hbr
    exact execBr_cc h
  · have hsame := exec_withCc_of_nondefiner s.cc hd (fun nzp off e => hbr ⟨nzp, off, e⟩) h
    rw [withCc_self s, h] at hsame
    have ht : t = t.withCc s.cc := Host.Outcome.next.inj hsame
    rw [ht, withCc_cc]

/-- Settles O51: run under another `cc`, an instruction but BR overwrites it or carries it through; a non-definer does
the latter, so it keeps its own. -/
theorem onlyDefinersWriteCcAndOnlyBrReadsIt : Obligations.OnlyDefinersWriteCcAndOnlyBrReadsIt := by
  refine ⟨fun i s t => exec_cc_of_nondefiner, fun i s t c hbr h => ?_⟩
  have hcases : exec i (s.withCc c) = .next t ∨ exec i (s.withCc c) = .next (t.withCc c) := by
    cases hd : definedReg i with
    | none => exact .inr (exec_withCc_of_nondefiner c hd hbr h)
    | some r => exact exec_withCc_of_definer c hd h
  rcases hcases with he | he
  · exact ⟨t, he, rfl⟩
  · exact ⟨t.withCc c, he, rfl⟩

end Sys2Proof.Machine
end

section
/-! PROOFS. The read and write paths of memory: MemRead's poll, MemWrite, and a fetch from the status cell
(20_memory.md rules R52, R53, R55 and R70) -/

namespace Sys2Proof.Machine

/-! ## The environment's answers do not read memory (R63) -/

theorem inPoll_memWrite (a v : Word) (s : State) :
    inPoll (memWrite a v s) = ((inPoll s).1, memWrite a v (inPoll s).2) := by
  unfold inPoll
  rw [memWrite_env]
  cases s.env.polls <;> rfl

theorem inRead_memWrite (a v : Word) (s : State) :
    inRead (memWrite a v s) = ((inRead s).1, memWrite a v (inRead s).2) := by
  unfold inRead
  rw [memWrite_env]
  cases s.env.reads <;> rfl

theorem inPoll_answer {s u : State} {b : Bool} (h : inPoll s = (b, u)) : ∃ e, u = { s with env := e } := by
  simpa [h] using inPoll_snd s

theorem inRead_answer {s u : State} {c : InAnswer} (h : inRead s = (c, u)) : ∃ e, u = { s with env := e } := by
  simpa [h] using inRead_snd s

theorem inputWord_byte_toNat (cfg : Config) (b : Byte) : (inputWord cfg (.byte b)).toNat = b.toNat :=
  BitVec.toNat_setWidth_of_le (by decide)

/-! ## Frames of the environment and of a write -/

theorem frame_env (regs : List RegIdx) (cells : List Word) (s : State) (e : Env) :
    frame regs cells s { s with env := e } :=
  ⟨fun _ _ => rfl, fun _ _ => rfl, rfl, rfl⟩

/-- A write to a listed cell keeps the frame. -/
theorem frame_memWrite {regs : List RegIdx} {cells : List Word} {s t : State} {a : Word} (v : Word) (ha : a ∈ cells)
    (h : frame regs cells s t) : frame regs cells s (memWrite a v t) := by
  obtain ⟨hregs, hcells, hir, hcfg⟩ := h
  refine ⟨hregs, fun b hb => ?_, hir, hcfg⟩
  have hba : b ≠ a := fun e => hb (e ▸ ha)
  rw [storeRead_memWrite, if_neg hba, hcells b hb]

/-! ## What a poll leaves (R52) -/

theorem pollKeyboard_no_input {s u : State} (hp : inPoll s = (false, u)) :
    pollKeyboard s = memWrite s.cfg.kbsrAddr 0x0000#16 u := by
  simp [pollKeyboard, hp]

theorem pollKeyboard_input {s u v : State} {c : InAnswer} (hp : inPoll s = (true, u)) (hr : inRead u = (c, v)) :
    pollKeyboard s = memWrite s.cfg.kbdrAddr (inputWord s.cfg c) (memWrite s.cfg.kbsrAddr 0x8000#16 v) := by
  simp [pollKeyboard, hp, hr, inRead_memWrite]

/-- With distinct keyboard cells the poll's answer is the status cell's whole word (D10). -/
theorem storeRead_kbsrAddr_pollKeyboard {s : State} (h : s.cfg.kbsrAddr ≠ s.cfg.kbdrAddr) :
    storeRead s.cfg.kbsrAddr (pollKeyboard s) = if (inPoll s).1 then 0x8000#16 else 0x0000#16 := by
  cases hp : (inPoll s).1 with
  | false => simp [pollKeyboard_no_input (Prod.ext hp rfl), storeRead_memWrite]
  | true => simp [pollKeyboard_input (Prod.ext hp rfl) rfl, storeRead_memWrite, h]

theorem memRead_kbsrAddr (s : State) :
    memRead s.cfg.kbsrAddr s = (storeRead s.cfg.kbsrAddr (pollKeyboard s), pollKeyboard s) :=
  if_pos rfl

/-! ## The contract of MemRead (R52, R55) -/

/-- A status read whose poll finds no input clears the status cell, and does nothing else but take the answer. -/
theorem memRead_kbsrAddr_no_input {s u : State} (hp : inPoll s = (false, u)) :
    ∃ t, memRead s.cfg.kbsrAddr s = (0x0000#16, t) ∧ storeRead s.cfg.kbsrAddr t = 0x0000#16 ∧
      t.pc = s.pc ∧ t.cc = s.cc ∧ t.run = s.run ∧ t.out = s.out ∧ t.env = u.env ∧
      frame [] [s.cfg.kbsrAddr] s t := by
  obtain ⟨e, rfl⟩ := inPoll_answer hp
  have hstatus : storeRead s.cfg.kbsrAddr (pollKeyboard s) = 0x0000#16 := by
    rw [pollKeyboard_no_input hp, storeRead_memWrite, if_pos rfl]
  refine ⟨pollKeyboard s, by rw [memRead_kbsrAddr, hstatus], hstatus, ?_⟩
  rw [pollKeyboard_no_input hp]
  exact ⟨rfl, rfl, rfl, rfl, rfl, frame_memWrite _ (by simp) (frame_env _ _ s e)⟩

/-- A status read whose poll finds input sets the status cell and moves the input word to the data cell. -/
theorem memRead_kbsrAddr_input {s u v : State} {c : InAnswer} (h : s.cfg.kbsrAddr ≠ s.cfg.kbdrAddr)
    (hp : inPoll s = (true, u)) (hr : inRead u = (c, v)) :
    ∃ t, memRead s.cfg.kbsrAddr s = (0x8000#16, t) ∧ storeRead s.cfg.kbsrAddr t = 0x8000#16 ∧
      storeRead s.cfg.kbdrAddr t = inputWord s.cfg c ∧
      t.pc = s.pc ∧ t.cc = s.cc ∧ t.run = s.run ∧ t.out = s.out ∧ t.env = v.env ∧
      frame [] [s.cfg.kbsrAddr, s.cfg.kbdrAddr] s t := by
  obtain ⟨e, rfl⟩ := inPoll_answer hp
  obtain ⟨e', rfl⟩ := inRead_answer hr
  have hstatus : storeRead s.cfg.kbsrAddr (pollKeyboard s) = 0x8000#16 := by
    rw [storeRead_kbsrAddr_pollKeyboard h, hp, if_pos rfl]
  refine ⟨pollKeyboard s, by rw [memRead_kbsrAddr, hstatus], hstatus, ?_⟩
  rw [pollKeyboard_input hp hr]
  refine ⟨by rw [storeRead_memWrite, if_pos rfl], rfl, rfl, rfl, rfl, rfl, ?_⟩
  exact frame_memWrite _ (by simp) (frame_memWrite _ (by simp) (frame_env _ _ s e'))

/-- Settles O44: a plain read, a status read without input, and one with it. -/
theorem memReadFollowsItsContract : Obligations.MemReadFollowsItsContract := by
  refine ⟨fun _ _ => memRead_plain, fun _ _ => memRead_kbsrAddr_no_input, fun s u v c h hp hr => ?_⟩
  obtain ⟨t, hread, hstatus, hdata, hrest⟩ := memRead_kbsrAddr_input h hp hr
  refine ⟨t, hread, hstatus, ?_, ?_, hrest⟩
  · rintro b rfl
    rw [hdata, inputWord_byte_toNat]
  · rintro rfl
    exact hdata

/-! ## MemWrite (R53) -/

theorem memWrite_quietFrame (a v : Word) (s : State) : quietFrame [] [a] s (memWrite a v s) :=
  ⟨frame_memWrite v (by simp) (frame_env _ _ s s.env), rfl, rfl, rfl⟩

/-- Settles O45: the written word is read back, a read of any other address is plain and so keeps it, and a status read
leaves what its own poll answers, which no write changes. -/
theorem memWriteIsAnUnconditionalStore : Obligations.MemWriteIsAnUnconditionalStore := by
  refine ⟨fun a v s => ⟨?_, rfl, rfl, memWrite_quietFrame a v s⟩, fun b v s hb => ?_, fun v s h => ?_⟩
  · rw [storeRead_memWrite, if_pos rfl]
  · have hplain : (memRead b (memWrite s.cfg.kbsrAddr v s)).2 = memWrite s.cfg.kbsrAddr v s :=
      congrArg Prod.snd (memRead_plain (s := memWrite s.cfg.kbsrAddr v s) hb)
    rw [hplain, storeRead_memWrite, if_pos rfl]
  · have hread := memRead_kbsrAddr (memWrite s.cfg.kbsrAddr v s)
    have hstatus := storeRead_kbsrAddr_pollKeyboard (s := memWrite s.cfg.kbsrAddr v s) h
    rw [memWrite_cfg] at hread hstatus
    rw [hread, hstatus, inPoll_memWrite]

/-! ## A fetch from the status cell (R70) -/

theorem fetch_ir_at_kbsrAddr {s : State} (h : s.cfg.kbsrAddr ≠ s.cfg.kbdrAddr) (hpc : s.pc = s.cfg.kbsrAddr) :
    (fetch s).ir = if (inPoll s).1 then 0x8000#16 else 0x0000#16 := by
  rw [← storeRead_kbsrAddr_pollKeyboard h]
  calc (fetch s).ir
    _ = (memRead s.pc s).1 := by rw [fetch_eq]
    _ = storeRead s.cfg.kbsrAddr (pollKeyboard s) := by rw [hpc, memRead_kbsrAddr]

/-- R140: a BR that selects no flag does nothing. -/
theorem exec_br_none (off : BitVec 9) (s : State) : exec (.br 0b000#3 off) s = .next s := by
  have hnot : brTaken 0b000#3 s = false := by simp [brTaken]
  simp [exec, execBr, hnot]

/-- Settles O42: the fetched word is the status the poll leaves: 0x8000 has the reserved opcode, and 0x0000 is a BR that
selects no flag. -/
theorem fetchFromTheStatusCellPolls : Obligations.FetchFromTheStatusCellPolls := by
  intro s h hpc
  have hir := fetch_ir_at_kbsrAddr h hpc
  refine ⟨fun hp => ?_, fun hp => ?_⟩
  · rw [hp, if_pos rfl] at hir
    rw [hir]
    exact ⟨rfl, decode_op8 (by decide)⟩
  · have hir0 : (fetch s).ir = 0x0000#16 := by simpa [hp] using hir
    have hdecode : decode 0x0000#16 = .br 0b000#3 0#9 := by decide
    rw [hir0, hdecode]
    exact ⟨rfl, exec_br_none _ _⟩

end Sys2Proof.Machine
end

section
/-! PROOFS. The encoding: the bits with no effect, BR with none or all of the flags, and the reserved opcodes
(30_encoding.md rules R86, R87 and R89) -/

namespace Sys2Proof.Machine

/-! ## Ignored bits (R86) -/

/-- The forms with ignored bits, and what is ignored in each. -/
theorem ignoredBits_cases (w : Word) :
    ignoredBits w = 0x0000#16 ∨
    ((opOf w = 0x1#4 ∨ opOf w = 0x5#4) ∧ immFlagOf w = 0#1 ∧ ignoredBits w = 0x0018#16) ∨
    (opOf w = 0x9#4 ∧ ignoredBits w = 0x003F#16) ∨
    (opOf w = 0xC#4 ∧ ignoredBits w = 0x0E3F#16) ∨
    (opOf w = 0x4#4 ∧ longFlagOf w = 0#1 ∧ ignoredBits w = 0x063F#16) ∨
    (opOf w = 0xF#4 ∧ ignoredBits w = 0x0F00#16) ∨
    ((opOf w = 0x8#4 ∨ opOf w = 0xD#4) ∧ ignoredBits w = 0x0FFF#16) := by
  unfold ignoredBits
  split_ifs <;> simp_all

/-- Words that agree outside a mask agree in every field that meets no bit of it. -/
theorem extractLsb'_eq_of_agree {w w' m : Word} (h : w &&& ~~~m = w' &&& ~~~m) {start len : Nat}
    (hm : (~~~m).extractLsb' start len = BitVec.allOnes len) : w'.extractLsb' start len = w.extractLsb' start len := by
  have hw := extractLsb'_and_eq h start len
  have hw' := extractLsb'_and_eq (Eq.refl (w' &&& ~~~m)) start len
  rw [hm, BitVec.and_allOnes] at hw hw'
  exact hw'.trans hw.symm

/-- Settles O6: in each form the opcode, the form's flag and its operands lie outside the ignored bits. -/
theorem ignoredBitsHaveNoEffect : Obligations.IgnoredBitsHaveNoEffect := by
  intro w w' h
  rcases ignoredBits_cases w with
    hm | ⟨hop, hflag, hm⟩ | ⟨hop, hm⟩ | ⟨hop, hm⟩ | ⟨hop, hflag, hm⟩ | ⟨hop, hm⟩ | ⟨hop, hm⟩ <;> rw [hm] at h
  · -- a form that ignores nothing
    have hw : w = w' := by simpa only [BitVec.not_zero, BitVec.and_allOnes] using h
    rw [hw]
  all_goals have hop' : opOf w' = opOf w := extractLsb'_eq_of_agree h (by decide)
  · -- ADD and AND of two registers
    have hflag' : immFlagOf w' = immFlagOf w := extractLsb'_eq_of_agree h (by decide)
    have hdr : drOf w' = drOf w := extractLsb'_eq_of_agree h (by decide)
    have hsr1 : sr1Of w' = sr1Of w := extractLsb'_eq_of_agree h (by decide)
    have hsr2 : sr2Of w' = sr2Of w := extractLsb'_eq_of_agree h (by decide)
    rcases hop with hop | hop
    · rw [decode_op1 hop, decode_op1 (hop'.trans hop), hflag', hdr, hsr1, hsr2, hflag]
      rfl
    · rw [decode_op5 hop, decode_op5 (hop'.trans hop), hflag', hdr, hsr1, hsr2, hflag]
      rfl
  · -- NOT
    have hdr : drOf w' = drOf w := extractLsb'_eq_of_agree h (by decide)
    have hsr1 : sr1Of w' = sr1Of w := extractLsb'_eq_of_agree h (by decide)
    rw [decode_op9 hop, decode_op9 (hop'.trans hop), hdr, hsr1]
  · -- JMP
    have hbase : sr1Of w' = sr1Of w := extractLsb'_eq_of_agree h (by decide)
    rw [decode_opC hop, decode_opC (hop'.trans hop), hbase]
  · -- JSRR
    have hflag' : longFlagOf w' = longFlagOf w := extractLsb'_eq_of_agree h (by decide)
    have hbase : sr1Of w' = sr1Of w := extractLsb'_eq_of_agree h (by decide)
    rw [decode_op4 hop, decode_op4 (hop'.trans hop), hflag', hbase, hflag]
    rfl
  · -- TRAP
    have hvect : trapvectOf w' = trapvectOf w := extractLsb'_eq_of_agree h (by decide)
    rw [decode_opF hop, decode_opF (hop'.trans hop), hvect]
  · -- the reserved opcodes
    rcases hop with hop | hop
    · rw [decode_op8 hop, decode_op8 (hop'.trans hop)]
    · rw [decode_opD hop, decode_opD (hop'.trans hop)]

/-! ## BR with no flag and with all flags (R89) -/

/-- A field of a field is a field of the word. -/
theorem extractLsb'_extractLsb' (w : Word) {start len start' len' : Nat} (h : start' + len' ≤ len) :
    (w.extractLsb' start len).extractLsb' start' len' = w.extractLsb' (start + start') len' := by
  ext i hi
  have hlt : start' + i < len := by omega
  simp [hlt, Nat.add_assoc]

/-- The seven bits above the offset of a BR are its opcode and its flags. -/
theorem decode_of_brTop {w : Word} {nzp : BitVec 3} (h : w.extractLsb' 9 7 = 0x0#4 ++ nzp) :
    decode w = .br nzp (off9Of w) := by
  have hop : (w.extractLsb' 9 7).extractLsb' 3 4 = opOf w := extractLsb'_extractLsb' w (by decide)
  have hnzp : (w.extractLsb' 9 7).extractLsb' 0 3 = nzpOf w := extractLsb'_extractLsb' w (by decide)
  rw [h, BitVec.extractLsb'_append_eq_left] at hop
  rw [h, BitVec.extractLsb'_append_eq_right] at hnzp
  rw [decode_op0 hop.symm, hnzp]

/-- R140: a BR that selects every flag is always taken. -/
theorem exec_br_all (off : BitVec 9) (s : State) : exec (.br 0b111#3 off) s = .next (s.setPc (pcRel9 off s)) := by
  have htaken : brTaken 0b111#3 s = true := by
    rw [brTaken_eq_selects]
    cases s.cc <;> rfl
  simp [exec, execBr, htaken]

theorem exec_of_brTop_none {w : Word} (s : State) (h : w.extractLsb' 9 7 = 0b0000000#7) :
    exec (decode w) s = .next s := by
  rw [decode_of_brTop (nzp := 0b000#3) h, exec_br_none]

/-- Settles O17: `cc` holds one flag, so no flag selects it and all flags do; the all-zero word selects none. -/
theorem branchOnNoFlagIsANoOp : Obligations.BranchOnNoFlagIsANoOp := by
  refine ⟨fun w s => exec_of_brTop_none s, fun w s h => ?_, fun s => exec_of_brTop_none s (by decide)⟩
  rw [decode_of_brTop (nzp := 0b111#3) h, exec_br_all, pcRel9_eq_wrap]
  rfl

/-! ## The reserved opcodes (R87) -/

/-- Settles O21: the opcode alone selects a reserved instruction, whose record's address is `instrAddr`. -/
theorem reservedOpcodesRaiseTheirFault : Obligations.ReservedOpcodesRaiseTheirFault := by
  refine ⟨fun w h => decode_op8 (opOf_of_masked h (by decide)), fun w h => decode_opD (opOf_of_masked h (by decide)),
    fun s => ?_, fun s => ?_, fun op ir addr => rfl⟩
  · rw [wrap_instrAddr]
    rfl
  · rw [wrap_instrAddr]
    rfl

end Sys2Proof.Machine
end

section
/-! PROOFS. The fetch: the word at `pc`, the increment, and the frame (40_fetch_decode.md rules R111 and R117) -/

namespace Sys2Proof.Machine

/-- R117: the increment wraps. -/
theorem fetch_pc_toNat (s : State) : (fetch s).pc.toNat = (s.pc.toNat + 1) % 65536 := by
  rw [fetch_eq]
  exact BitVec.toNat_add s.pc 1#16

/-- R32, R52, R111: all that a fetch can change, with the memory and the environment those of its read. -/
theorem fetch_frame (s : State) :
    fetch s = { s with mem := (memRead s.pc s).2.mem, env := (memRead s.pc s).2.env, ir := (memRead s.pc s).1,
                       pc := s.pc + 1#16 } := by
  obtain ⟨m, e, hread, -, -⟩ := memRead_snd s.pc s
  rw [fetch_eq, hread]

/-- R61: away from the status cell the fetch's read has no side effect. -/
theorem fetch_plain {s : State} (h : s.pc ≠ s.cfg.kbsrAddr) :
    fetch s = { s with ir := storeRead s.pc s, pc := s.pc + 1#16 } := by
  rw [fetch_eq, memRead_plain h]

/-- Settles O41: beyond `ir` and `pc` the fetch changes only what its read changes, and a plain read changes nothing. -/
theorem fetchReadsAtPcThenIncrements : Obligations.FetchReadsAtPcThenIncrements := by
  intro s
  have hregs : sameRegs [] s (fetch s) := by
    rw [fetch_frame]
    exact fun _ _ => rfl
  have hplain : s.pc ≠ s.cfg.kbsrAddr → sameCells [] s (fetch s) ∧ (fetch s).env = s.env := by
    intro h
    rw [fetch_plain h]
    exact ⟨fun _ _ => rfl, rfl⟩
  refine ⟨rfl, fetch_pc_toNat s, ?_, ?_, ?_, ?_, rfl, hregs, fun _ _ => rfl, hplain⟩ <;> rw [fetch_frame]

end Sys2Proof.Machine
end

section
/-! PROOFS. The operate instructions: ADD, AND and NOT (41_operate.md rules R130 to R134) -/

namespace Sys2Proof.Machine

/-! ## What the write of a destination leaves (R27) -/

@[simp] theorem reg_writeDest_same (s : State) (dr : RegIdx) (v : Word) : (writeDest dr v s).reg dr = v := by
  simp [reg_writeDest]

theorem writeDest_quietFrame (dr : RegIdx) (v : Word) (s : State) : quietFrame [dr] [] s (writeDest dr v s) := by
  have hregs : sameRegs [dr] s (writeDest dr v s) := by
    intro q hq
    have hne : q ≠ dr := fun e => hq (by simp [e])
    rw [reg_writeDest, if_neg hne]
  exact ⟨⟨hregs, fun _ _ => rfl, rfl, rfl⟩, rfl, rfl, rfl⟩

/-- What every register-defining write does beside the value: `cc` from the register's new value, and the frame. -/
theorem writeDest_setsCc_and_keeps (dr : RegIdx) (v : Word) (s : State) :
    ccMatches (writeDest dr v s).cc ((writeDest dr v s).reg dr) ∧ (writeDest dr v s).pc = s.pc ∧
      quietFrame [dr] [] s (writeDest dr v s) := by
  refine ⟨?_, rfl, writeDest_quietFrame dr v s⟩
  rw [reg_writeDest_same]
  exact ccOf_matches v

/-! ## The instructions are writes of their ALU result -/

theorem exec_addReg (dr sr1 sr2 : RegIdx) (s : State) :
    exec (.addReg dr sr1 sr2) s = .next (writeDest dr (s.reg sr1 + s.reg sr2) s) := rfl

theorem exec_addImm (dr sr1 : RegIdx) (imm : BitVec 5) (s : State) :
    exec (.addImm dr sr1 imm) s = .next (writeDest dr (s.reg sr1 + sext imm) s) := rfl

theorem exec_andReg (dr sr1 sr2 : RegIdx) (s : State) :
    exec (.andReg dr sr1 sr2) s = .next (writeDest dr (s.reg sr1 &&& s.reg sr2) s) := rfl

theorem exec_andImm (dr sr1 : RegIdx) (imm : BitVec 5) (s : State) :
    exec (.andImm dr sr1 imm) s = .next (writeDest dr (s.reg sr1 &&& sext imm) s) := rfl

theorem exec_not (dr sr1 : RegIdx) (s : State) : exec (.not dr sr1) s = .next (writeDest dr (~~~s.reg sr1) s) := rfl

/-! ## The extended field, as a number and bit by bit (R11) -/

/-- Adding the extended field is narrowing the exact sum with the field's signed value. -/
theorem add_sext_eq_wrap {n : Nat} (a : Word) (f : BitVec n) : a + sext f = wrap (a.toNat + f.toInt) :=
  (wrap_add a f.toInt).symm

/-- The field's top bit stands for every bit above it. -/
theorem getLsbD_sext {n k : Nat} (f : BitVec n) (hk : k < 16) : (sext f).getLsbD k = f.getLsbD (min k (n - 1)) := by
  rw [sext, BitVec.getLsbD_signExtend, decide_eq_true hk, Bool.true_and]
  split
  next hlt => rw [Nat.min_eq_left (by omega)]
  next hge => rw [Nat.min_eq_right (by omega), BitVec.msb_eq_getLsbD_last]

/-! ## The two forms of ADD and AND in the encoding (R80) -/

/-- A match under a mask that covers bit 5, with the bit clear, is of the register form. -/
theorem immFlagOf_ne_one_of_masked {w m v : Word} (h : w &&& m = v) (hm : m.extractLsb' 5 1 = 1#1)
    (hv : v.extractLsb' 5 1 = 0#1) : ¬ immFlagOf w = 1#1 := by
  have hflag : immFlagOf w = 0#1 := (bit_of_masked h hm).trans hv
  rw [hflag]
  decide

theorem decode_addReg {w : Word} (h : w &&& 0xF020#16 = 0x1000#16) :
    decode w = .addReg (drOf w) (sr1Of w) (sr2Of w) :=
  (decode_op1 (opOf_of_masked h (by decide))).trans (if_neg (immFlagOf_ne_one_of_masked h (by decide) (by decide)))

theorem decode_addImm {w : Word} (h : w &&& 0xF020#16 = 0x1020#16) :
    decode w = .addImm (drOf w) (sr1Of w) (imm5Of w) :=
  (decode_op1 (opOf_of_masked h (by decide))).trans (if_pos (bit_of_masked h (by decide)))

theorem decode_andReg {w : Word} (h : w &&& 0xF020#16 = 0x5000#16) :
    decode w = .andReg (drOf w) (sr1Of w) (sr2Of w) :=
  (decode_op5 (opOf_of_masked h (by decide))).trans (if_neg (immFlagOf_ne_one_of_masked h (by decide) (by decide)))

theorem decode_andImm {w : Word} (h : w &&& 0xF020#16 = 0x5020#16) :
    decode w = .andImm (drOf w) (sr1Of w) (imm5Of w) :=
  (decode_op5 (opOf_of_masked h (by decide))).trans (if_pos (bit_of_masked h (by decide)))

theorem decode_not {w : Word} (h : w &&& 0xF000#16 = 0x9000#16) : decode w = .not (drOf w) (sr1Of w) :=
  decode_op9 (opOf_of_masked h (by decide))

/-! ## The statements -/

/-- Settles O11: the ALU's sum is the exact sum narrowed. -/
theorem addRegisterAddsTwoRegisters : Obligations.AddRegisterAddsTwoRegisters := by
  refine ⟨fun _ => decode_addReg, fun dr sr1 sr2 s =>
    ⟨_, exec_addReg dr sr1 sr2 s, ?_, writeDest_setsCc_and_keeps dr _ s⟩⟩
  rw [reg_writeDest_same, wrap_toNat_add]

/-- Settles O12: adding the extended field adds its signed value. -/
theorem addImmediateAddsTheSignedField : Obligations.AddImmediateAddsTheSignedField := by
  refine ⟨fun _ => decode_addImm, fun dr sr1 imm s =>
    ⟨_, exec_addImm dr sr1 imm s, ?_, writeDest_setsCc_and_keeps dr _ s⟩⟩
  rw [reg_writeDest_same, add_sext_eq_wrap]

/-- Settles O13: the ALU's AND is bitwise, and `writeDest` sets `cc` whether or not the value changes. -/
theorem andRegisterAndsEachBit : Obligations.AndRegisterAndsEachBit := by
  refine ⟨fun _ => decode_andReg, fun dr sr1 sr2 s =>
    ⟨_, exec_andReg dr sr1 sr2 s, fun k _ => ?_, writeDest_setsCc_and_keeps dr _ s⟩⟩
  rw [reg_writeDest_same, BitVec.getLsbD_and]

/-- Settles O14: the extended field repeats its bit 4 above. -/
theorem andImmediateAndsTheExtendedField : Obligations.AndImmediateAndsTheExtendedField := by
  refine ⟨fun _ => decode_andImm, fun dr sr1 imm s =>
    ⟨_, exec_andImm dr sr1 imm s, fun k hk => ?_, writeDest_setsCc_and_keeps dr _ s⟩⟩
  rw [reg_writeDest_same, BitVec.getLsbD_and, getLsbD_sext imm hk]

/-- Settles O15: the ALU's complement is bitwise, on the word's sixteen bits. -/
theorem notComplementsEachBit : Obligations.NotComplementsEachBit := by
  refine ⟨fun _ => decode_not, fun dr sr1 s =>
    ⟨_, exec_not dr sr1 s, fun k hk => ?_, writeDest_setsCc_and_keeps dr _ s⟩⟩
  rw [reg_writeDest_same, BitVec.getLsbD_not, decide_eq_true hk, Bool.true_and]

end Sys2Proof.Machine
end

section
/-! PROOFS. The control transfers: BR, JMP, JSR and JSRR (42_control.md rules R140 to R143) -/

namespace Sys2Proof.Machine

/-! ## What a jump and a saved return address leave unchanged -/

theorem quietFrame_refl (s : State) : quietFrame [] [] s s :=
  ⟨⟨fun _ _ => rfl, fun _ _ => rfl, rfl, rfl⟩, rfl, rfl, rfl⟩

/-- No frame speaks of `pc`. -/
theorem quietFrame_setPc {regs : List RegIdx} {cells : List Word} {s t : State} (h : quietFrame regs cells s t)
    (v : Word) : quietFrame regs cells s (t.setPc v) := h

theorem saveReturn_quietFrame (s : State) : quietFrame [7#3] [] s (saveReturn s) := by
  have hregs : sameRegs [7#3] s (saveReturn s) := by
    intro q hq
    rw [reg_saveReturn, if_neg (List.ne_of_not_mem_cons hq)]
  exact ⟨⟨hregs, fun _ _ => rfl, rfl, rfl⟩, rfl, rfl, rfl⟩

@[simp] theorem reg_saveReturn_link (s : State) : (saveReturn s).reg 7#3 = s.pc := by simp [reg_saveReturn]

/-! ## The instructions are writes of `pc`, the calls after the link -/

/-- R140: a branch not taken writes back the `pc` that stands. -/
theorem exec_br (nzp : BitVec 3) (off : BitVec 9) (s : State) :
    exec (.br nzp off) s = .next (s.setPc (if selects nzp s.cc then pcRel9 off s else s.pc)) := by
  simp only [exec, execBr, brTaken_eq_selects]
  split <;> rfl

theorem exec_jmp (base : RegIdx) (s : State) : exec (.jmp base) s = .next (s.setPc (s.reg base)) := rfl

theorem exec_jsr (off : BitVec 11) (s : State) :
    exec (.jsr off) s = .next ((saveReturn s).setPc (pcRel11 off s)) := rfl

/-- R143: the base is read in the state that holds the link. -/
theorem exec_jsrr (base : RegIdx) (s : State) :
    exec (.jsrr base) s = .next ((saveReturn s).setPc ((saveReturn s).reg base)) := rfl

/-! ## Their encodings (R80) -/

theorem decode_br {w : Word} (h : w &&& 0xF000#16 = 0x0000#16) : decode w = .br (nzpOf w) (off9Of w) :=
  decode_op0 (opOf_of_masked h (by decide))

theorem decode_jmp {w : Word} (h : w &&& 0xF000#16 = 0xC000#16) : decode w = .jmp (sr1Of w) :=
  decode_opC (opOf_of_masked h (by decide))

theorem decode_jsr {w : Word} (h : w &&& 0xF800#16 = 0x4800#16) : decode w = .jsr (off11Of w) := by
  have hflag : longFlagOf w = 1#1 := bit_of_masked h (by decide)
  rw [decode_op4 (opOf_of_masked h (by decide)), if_pos hflag]

theorem decode_jsrr {w : Word} (h : w &&& 0xF800#16 = 0x4000#16) : decode w = .jsrr (sr1Of w) := by
  have hflag : longFlagOf w = 0#1 := bit_of_masked h (by decide)
  rw [decode_op4 (opOf_of_masked h (by decide)), hflag, if_neg (by decide)]

/-! ## The statements -/

/-- Settles O16: the AND test is the test of the flag's own bit, and only `pc` is written. -/
theorem branchIsTakenOnASelectedFlag : Obligations.BranchIsTakenOnASelectedFlag := by
  refine ⟨fun _ => decode_br, fun nzp off s =>
    ⟨_, exec_br nzp off s, ?_, rfl, quietFrame_setPc (quietFrame_refl s) _⟩⟩
  rw [setPc_pc, pcRel9_eq_wrap]

/-- Settles O19: the target is reckoned from the `pc` that is linked. -/
theorem jsrLinksAndBranches : Obligations.JsrLinksAndBranches :=
  ⟨fun _ => decode_jsr, fun off s =>
    ⟨_, exec_jsr off s, reg_saveReturn_link s, pcRel11_eq_wrap off s, rfl,
      quietFrame_setPc (saveReturn_quietFrame s) _⟩⟩

/-- Settles O20: after the link R7 reads as the old `pc` and every other base as before. -/
theorem jsrrLinksBeforeItReadsTheBase : Obligations.JsrrLinksBeforeItReadsTheBase :=
  ⟨fun _ => decode_jsrr, fun base s =>
    ⟨_, exec_jsrr base s, reg_saveReturn_link s, reg_saveReturn s base, rfl,
      quietFrame_setPc (saveReturn_quietFrame s) _⟩⟩

/-- Settles O18: the jump writes `pc` alone, and no flag and no link. -/
theorem jumpGoesToTheBaseRegister : Obligations.JumpGoesToTheBaseRegister :=
  ⟨fun _ => decode_jmp, fun base s =>
    ⟨_, exec_jmp base s, rfl, rfl, quietFrame_setPc (quietFrame_refl s) _⟩⟩

end Sys2Proof.Machine
end

section
/-! PROOFS. The load/store unit: LD, LDI, LDR, LEA, ST, STI and STR (43_load_store.md rules R151 to R157) -/

namespace Sys2Proof.Machine

/-! ## What a MemRead leaves (R52, R61) -/

@[simp] theorem memRead_snd_pc (a : Word) (s : State) : (memRead a s).2.pc = s.pc := by
  obtain ⟨m, e, hread, -, -⟩ := memRead_snd a s
  rw [hread]

@[simp] theorem memRead_snd_cc (a : Word) (s : State) : (memRead a s).2.cc = s.cc := by
  obtain ⟨m, e, hread, -, -⟩ := memRead_snd a s
  rw [hread]

@[simp] theorem reg_memRead_snd (a : Word) (s : State) (r : RegIdx) : (memRead a s).2.reg r = s.reg r := by
  obtain ⟨m, e, hread, -, -⟩ := memRead_snd a s
  rw [hread]
  rfl

/-- A MemRead changes the keyboard cells and the environment at most, and nothing away from the status cell. -/
theorem memRead_readFrame (a : Word) (s : State) : readFrame [] [] [a] s (memRead a s).2 (memRead a s).2 := by
  have hplain : s.cfg.kbsrAddr ∉ [a] → sameCells [] s (memRead a s).2 ∧ (memRead a s).2.env = s.env := by
    intro hn
    rw [memRead_plain (List.ne_of_not_mem_cons hn).symm]
    exact ⟨fun _ _ => rfl, rfl⟩
  obtain ⟨m, e, hread, -, hcells⟩ := memRead_snd a s
  rw [hread] at hplain ⊢
  have hkept : sameCells [s.cfg.kbsrAddr, s.cfg.kbdrAddr] s { s with mem := m, env := e } := by
    intro b hb
    simp only [List.mem_cons, List.not_mem_nil, or_false, not_or] at hb
    exact hcells b hb.1 hb.2
  exact ⟨⟨fun _ _ => rfl, hkept, rfl, rfl⟩, rfl, rfl, fun _ _ => rfl, rfl, hplain⟩

/-! ## Frames in sequence -/

theorem frame_trans {regs : List RegIdx} {cells : List Word} {s u t : State} (h : frame regs cells s u)
    (h' : frame regs cells u t) : frame regs cells s t := by
  obtain ⟨hregs, hcells, hir, hcfg⟩ := h
  obtain ⟨hregs', hcells', hir', hcfg'⟩ := h'
  exact ⟨fun r hr => (hregs' r hr).trans (hregs r hr), fun a ha => (hcells' a ha).trans (hcells a ha),
    hir'.trans hir, hcfg'.trans hcfg⟩

/-- A frame that lets more change is weaker. -/
theorem frame_mono {regs regs' : List RegIdx} {cells cells' : List Word} {s t : State} (h : frame regs cells s t)
    (hr : regs ⊆ regs') (hc : cells ⊆ cells') : frame regs' cells' s t := by
  obtain ⟨hregs, hcells, hir, hcfg⟩ := h
  exact ⟨fun r hn => hregs r fun hm => hn (hr hm), fun a hn => hcells a fun hm => hn (hc hm), hir, hcfg⟩

/-- Reads, then further reads and changes: one frame over the reads of both. -/
theorem readFrame_trans {regs : List RegIdx} {cells reads reads' : List Word} {s u v t : State}
    (h : readFrame [] [] reads s u u) (h' : readFrame regs cells reads' u v t) :
    readFrame regs cells (reads ++ reads') s v t := by
  obtain ⟨hframe, hrun, hout, -, -, hplain⟩ := h
  obtain ⟨hframe', hrun', hout', hcells', henv', hplain'⟩ := h'
  have ⟨_, _, _, hcfg⟩ := hframe
  rw [hcfg] at hframe' hplain'
  refine ⟨frame_trans (frame_mono hframe (by simp) (by simp)) hframe', hrun'.trans hrun, hout'.trans hout,
    hcells', henv', fun hn => ?_⟩
  rw [List.mem_append, not_or] at hn
  obtain ⟨hsame, henv⟩ := hplain hn.1
  obtain ⟨hsame', henv''⟩ := hplain' hn.2
  exact ⟨fun a ha => (hsame' a ha).trans (hsame a List.not_mem_nil), henv''.trans henv⟩

/-- Reads, then a change that makes no I/O call. -/
theorem readFrame_of_quietFrame {regs : List RegIdx} {cells reads : List Word} {s u t : State}
    (h : readFrame [] [] reads s u u) (hq : quietFrame regs cells u t) : readFrame regs cells reads s u t := by
  obtain ⟨hframe, hrun, hout, henv⟩ := hq
  have ⟨_, hcells, _, _⟩ := hframe
  have hquiet : readFrame regs cells [] u u t :=
    ⟨frame_mono hframe (List.Subset.refl _) (by simp), hrun, hout, hcells, henv, fun _ => ⟨hcells, henv⟩⟩
  simpa using readFrame_trans h hquiet

/-! ## What a load and a store leave -/

/-- What every load does with the word its last read gives: the destination, `cc`, and the frame over its reads. -/
theorem loadInto_writes_and_keeps (dr : RegIdx) {r : Word × State} {reads : List Word} {s : State}
    (hpc : r.2.pc = s.pc) (h : readFrame [] [] reads s r.2 r.2) :
    (loadInto dr r).reg dr = r.1 ∧ ccMatches (loadInto dr r).cc r.1 ∧ (loadInto dr r).pc = s.pc ∧
      readFrame [dr] [] reads s r.2 (loadInto dr r) :=
  ⟨reg_writeDest_same .., ccOf_matches r.1, hpc, readFrame_of_quietFrame h (writeDest_quietFrame ..)⟩

@[simp] theorem storeRead_memWrite_same (s : State) (a v : Word) : storeRead a (memWrite a v s) = v := by
  simp [storeRead_memWrite]

/-! ## The instructions are reads, and a write of the destination or of a cell -/

theorem exec_ld (dr : RegIdx) (off : BitVec 9) (s : State) :
    exec (.ld dr off) s = .next (loadInto dr (memRead (pcRel9 off s) s)) := rfl

/-- R152: the data is read in the state that the pointer's read leaves. -/
theorem exec_ldi (dr : RegIdx) (off : BitVec 9) (s : State) :
    exec (.ldi dr off) s =
      .next (loadInto dr (memRead (memRead (pcRel9 off s) s).1 (memRead (pcRel9 off s) s).2)) := rfl

theorem exec_ldr (dr base : RegIdx) (off : BitVec 6) (s : State) :
    exec (.ldr dr base off) s = .next (loadInto dr (memRead (baseOff6 base off s) s)) := rfl

theorem exec_lea (dr : RegIdx) (off : BitVec 9) (s : State) :
    exec (.lea dr off) s = .next (writeDest dr (pcRel9 off s) s) := rfl

theorem exec_st (sr : RegIdx) (off : BitVec 9) (s : State) :
    exec (.st sr off) s = .next (memWrite (pcRel9 off s) (s.reg sr) s) := rfl

/-- R156: the pointer's read leaves the source register as it was. -/
theorem exec_sti (sr : RegIdx) (off : BitVec 9) (s : State) :
    exec (.sti sr off) s =
      .next (memWrite (memRead (pcRel9 off s) s).1 (s.reg sr) (memRead (pcRel9 off s) s).2) := by
  simp [exec, execSti, busWrite]

theorem exec_str (sr base : RegIdx) (off : BitVec 6) (s : State) :
    exec (.str sr base off) s = .next (memWrite (baseOff6 base off s) (s.reg sr) s) := rfl

/-! ## Their encodings (R80) -/

theorem decode_ld {w : Word} (h : w &&& 0xF000#16 = 0x2000#16) : decode w = .ld (drOf w) (off9Of w) :=
  decode_op2 (opOf_of_masked h (by decide))

theorem decode_ldi {w : Word} (h : w &&& 0xF000#16 = 0xA000#16) : decode w = .ldi (drOf w) (off9Of w) :=
  decode_opA (opOf_of_masked h (by decide))

theorem decode_ldr {w : Word} (h : w &&& 0xF000#16 = 0x6000#16) :
    decode w = .ldr (drOf w) (sr1Of w) (off6Of w) :=
  decode_op6 (opOf_of_masked h (by decide))

theorem decode_lea {w : Word} (h : w &&& 0xF000#16 = 0xE000#16) : decode w = .lea (drOf w) (off9Of w) :=
  decode_opE (opOf_of_masked h (by decide))

theorem decode_st {w : Word} (h : w &&& 0xF000#16 = 0x3000#16) : decode w = .st (drOf w) (off9Of w) :=
  decode_op3 (opOf_of_masked h (by decide))

theorem decode_sti {w : Word} (h : w &&& 0xF000#16 = 0xB000#16) : decode w = .sti (drOf w) (off9Of w) :=
  decode_opB (opOf_of_masked h (by decide))

theorem decode_str {w : Word} (h : w &&& 0xF000#16 = 0x7000#16) :
    decode w = .str (drOf w) (sr1Of w) (off6Of w) :=
  decode_op7 (opOf_of_masked h (by decide))

/-! ## The statements -/

/-- Settles O22: one MemRead at the PC-relative address, whose word is loaded. -/
theorem loadReadsPcRelative : Obligations.LoadReadsPcRelative := by
  refine ⟨fun _ => decode_ld, fun dr off s r hr => ?_⟩
  rw [← pcRel9_eq_wrap] at hr ⊢
  subst hr
  exact ⟨_, exec_ld dr off s, loadInto_writes_and_keeps dr (memRead_snd_pc ..) (memRead_readFrame ..)⟩

/-- Settles O23: the frames of the two MemReads in sequence, and the second read's word is loaded. -/
theorem loadIndirectReadsThePointerThenTheData : Obligations.LoadIndirectReadsThePointerThenTheData := by
  refine ⟨fun _ => decode_ldi, fun dr off s p r hp hr => ?_⟩
  rw [← pcRel9_eq_wrap] at hp ⊢
  subst hp hr
  exact ⟨_, exec_ldi dr off s, loadInto_writes_and_keeps dr (by simp only [memRead_snd_pc])
    (readFrame_trans (memRead_readFrame ..) (memRead_readFrame ..))⟩

/-- Settles O24: the address is reckoned before the load, so the base may be the destination. -/
theorem loadRegisterReadsBasePlusOffset : Obligations.LoadRegisterReadsBasePlusOffset := by
  refine ⟨fun _ => decode_ldr, fun dr base off s r hr => ?_⟩
  rw [← baseOff6_eq_wrap] at hr ⊢
  subst hr
  exact ⟨_, exec_ldr dr base off s, loadInto_writes_and_keeps dr (memRead_snd_pc ..) (memRead_readFrame ..)⟩

/-- Settles O25: the address itself is the destination's value, and nothing is read. -/
theorem leaComputesTheAddressAndSetsCc : Obligations.LeaComputesTheAddressAndSetsCc := by
  refine ⟨fun _ => decode_lea, fun dr off s => ⟨_, exec_lea dr off s, ?_, writeDest_setsCc_and_keeps dr _ s⟩⟩
  rw [reg_writeDest_same, pcRel9_eq_wrap]

/-- Settles O26: one write of the source register's word, which makes no poll even at the status cell. -/
theorem storeWritesPcRelative : Obligations.StoreWritesPcRelative :=
  ⟨fun _ => decode_st, fun sr off s =>
    ⟨_, exec_st sr off s, pcRel9_eq_wrap off s, storeRead_memWrite_same .., rfl, rfl, memWrite_quietFrame ..⟩⟩

/-- Settles O27: the pointer's MemRead, then one write to the cell it names. -/
theorem storeIndirectWritesThroughThePointer : Obligations.StoreIndirectWritesThroughThePointer := by
  refine ⟨fun _ => decode_sti, fun sr off s p hp => ?_⟩
  subst hp
  exact ⟨_, exec_sti sr off s, pcRel9_eq_wrap off s, storeRead_memWrite_same .., memRead_snd_cc .., memRead_snd_pc ..,
    readFrame_of_quietFrame (memRead_readFrame ..) (memWrite_quietFrame ..)⟩

/-- Settles O28: one write of the source register's word, at the base and the offset. -/
theorem storeRegisterWritesBasePlusOffset : Obligations.StoreRegisterWritesBasePlusOffset :=
  ⟨fun _ => decode_str, fun sr base off s =>
    ⟨_, exec_str sr base off s, baseOff6_eq_wrap base off s, storeRead_memWrite_same .., rfl, rfl,
      memWrite_quietFrame ..⟩⟩

end Sys2Proof.Machine
end

section
/-! PROOFS. TRAP: the link, the routines OUT, HALT, GETC and IN, and the vectors outside the six (44_trap.md rules R170
to R172, R174, R176 and R177) -/

namespace Sys2Proof.Machine

/-! ## The encoding (R85) -/

/-- Opcode and vector select a TRAP's routine; the bits between them have no effect. -/
theorem decode_trap {w v : Word} (h : w &&& 0xF0FF#16 = v) (hop : opOf v = 0xF#4) :
    decode w = decodeTrap (trapvectOf v) := by
  have hvect : trapvectOf w = trapvectOf v := by
    have hf := extractLsb'_and_eq h 0 8
    exact (BitVec.and_allOnes (w := 8)).symm.trans hf
  rw [decode_opF ((opOf_of_masked h (by decide)).trans hop), hvect]

theorem decodeTrap_of_unlisted {v : BitVec 8} (h : v ∉ serviceVectors) : decodeTrap v = .trapOther v := by
  simp only [serviceVectors, List.mem_cons, List.not_mem_nil, or_false, not_or] at h
  obtain ⟨hgetc, hout, hputs, hin, hputsp, hhalt⟩ := h
  rw [decodeTrap, if_neg hgetc, if_neg hout, if_neg hputs, if_neg hin, if_neg hputsp, if_neg hhalt]

theorem decode_unlistedTrap {w : Word} (hop : w &&& 0xF000#16 = 0xF000#16)
    (hv : (w.extractLsb' 0 8).toNat ∉ serviceVectors.map BitVec.toNat) :
    decode w = .trapOther (w.extractLsb' 0 8) :=
  (decode_opF (opOf_of_masked hop (by decide))).trans
    (decodeTrap_of_unlisted fun hm => hv (List.mem_map_of_mem hm))

/-! ## What the entry leaves (R170) -/

theorem saveReturn_trapFrame (s : State) : trapFrame s (saveReturn s) := by
  obtain ⟨hframe, -, -, henv⟩ := saveReturn_quietFrame s
  exact ⟨hframe, reg_saveReturn_link s, rfl, rfl, henv⟩

@[simp] theorem reg_saveReturn_zero (s : State) : (saveReturn s).reg 0#3 = s.reg 0#3 := by
  rw [reg_saveReturn, if_neg (by decide)]

/-! The frame of a routine speaks neither of `out` nor of the run state. -/

theorem trapFrame_outBytes {s t : State} (h : trapFrame s t) (bs : List Byte) : trapFrame s (outBytes bs t) := h
theorem trapFrame_halt {s t : State} (h : trapFrame s t) : trapFrame s (halt t) := h
theorem trapFrame_raiseFault {s t : State} (h : trapFrame s t) (r : FaultRecord) : trapFrame s (raiseFault r t) := h

/-! ## OUT, HALT and the other vectors -/

theorem exec_trapOut (s : State) :
    exec .trapOut s = .next (outBytes [(s.reg 0#3).extractLsb' 0 8] (saveReturn s)) := by
  rw [← reg_saveReturn_zero]
  rfl

theorem exec_trapHalt (s : State) :
    exec .trapHalt s = .next (halt (outBytes s.cfg.haltNotice (saveReturn s))) := rfl

theorem exec_trapOther_abort {s : State} (v : BitVec 8) (h : s.cfg.unknownTrap = .abort) :
    exec (.trapOther v) s = .next (raiseFault (.unknownTrap v s.ir s.instrAddr) (saveReturn s)) := by
  simp only [exec, execTrapOther, h]

theorem exec_trapOther_noOp {s : State} (v : BitVec 8) (h : s.cfg.unknownTrap = .noOp) :
    exec (.trapOther v) s = .next (saveReturn s) := by
  simp only [exec, execTrapOther, h]

theorem lowByte_eq_ofNat (w : Word) : w.extractLsb' 0 8 = BitVec.ofNat 8 (w.toNat % 256) := by
  apply BitVec.eq_of_toNat_eq
  simp

/-- Settles O30: the link is written before R0 is read, and R0 is another register. -/
theorem outEmitsTheLowByteOfR0 : Obligations.OutEmitsTheLowByteOfR0 := by
  refine ⟨fun _ h => decode_trap h rfl, fun s =>
    ⟨_, exec_trapOut s, ?_, rfl, trapFrame_outBytes (saveReturn_trapFrame s) _⟩⟩
  rw [lowByte_eq_ofNat, outBytes_out, saveReturn_out]

/-- Settles O34: the notice is emitted and the run state set after the link. -/
theorem haltEmitsItsNoticeAndHalts : Obligations.HaltEmitsItsNoticeAndHalts :=
  ⟨fun _ h => decode_trap h rfl, fun s =>
    ⟨_, exec_trapHalt s, rfl, rfl, trapFrame_halt (trapFrame_outBytes (saveReturn_trapFrame s) _), rfl⟩⟩

/-- Settles O35: the link stands under both policies, and the record's address is `instrAddr`. -/
theorem unlistedTrapFollowsThePolicy : Obligations.UnlistedTrapFollowsThePolicy := by
  refine ⟨fun w => decode_unlistedTrap, fun v s hp =>
    ⟨_, exec_trapOther_abort v hp, ?_, rfl, trapFrame_raiseFault (saveReturn_trapFrame s) _⟩, fun v s hp =>
    ⟨_, exec_trapOther_noOp v hp, rfl, rfl, saveReturn_trapFrame s⟩, fun v ir addr => rfl⟩
  rw [wrap_instrAddr, raiseFault_run]

/-! ## GETC and IN -/

/-! The environment's answers read the environment alone (R63). -/

theorem inWait_of_env_eq {s t : State} (h : t.env = s.env) :
    inWait t = ((inWait s).1, { t with env := (inWait s).2.env }) := by
  unfold inWait
  rw [h]
  cases s.env.waits with
  | nil => rw [← h]
  | cons e rest => rfl

theorem inRead_of_env_eq {s t : State} (h : t.env = s.env) :
    inRead t = ((inRead s).1, { t with env := (inRead s).2.env }) := by
  unfold inRead
  rw [h]
  cases s.env.reads <;> rfl

/-- An answered read hands on the answer that the environment gives, and leaves the environment as the answer does. -/
theorem blockingRead_of_answer {s t u : State} {c : InAnswer} (k : InAnswer → State → State) (henv : t.env = s.env)
    (hw : (inWait s).1 = .answered) (hr : inRead (inWait s).2 = (c, u)) :
    blockingRead t k = .next (k c { t with env := u.env }) := by
  have hwait := inWait_of_env_eq henv
  have hread : inRead (inWait t).2 = (c, { t with env := u.env }) := by
    have henv' : (inWait t).2.env = (inWait s).2.env := by rw [hwait]
    rw [inRead_of_env_eq henv', hr, hwait]
  rcases blockingRead_cases t k with ⟨-, he⟩ | ⟨hs, -⟩ | ⟨hn, -⟩
  · rw [he, hread]
  · simp [hwait, hw] at hs
  · simp [hwait, hw] at hn

theorem exec_trapGetc {s u : State} {c : InAnswer} (hw : (inWait s).1 = .answered)
    (hr : inRead (inWait s).2 = (c, u)) :
    exec .trapGetc s = .next (writeDest 0#3 (inputWord s.cfg c) { saveReturn s with env := u.env }) := by
  rw [exec, execTrapGetc, blockingRead_of_answer _ (saveReturn_env s) hw hr]
  rfl

theorem exec_trapIn {s u : State} {c : InAnswer} (hw : (inWait s).1 = .answered)
    (hr : inRead (inWait s).2 = (c, u)) :
    exec .trapIn s = .next (writeDest 0#3 (inputWord s.cfg c)
      (outBytes [echoByte s.cfg c] (outBytes s.cfg.inPrompt { saveReturn s with env := u.env }))) := by
  have henv : (outBytes s.cfg.inPrompt (saveReturn s)).env = s.env := by simp
  rw [exec, execTrapIn, blockingRead_of_answer _ henv hw hr]
  rfl

/-- What the write of the answer to R0 adds to a state `t` that holds the link: `cc`, and R0 in the frame. -/
theorem writeAnswer_setsCc_and_keeps {s t : State} (v : Word) (hlink : t.reg 7#3 = s.pc) (h : frame [7#3] [] s t) :
    ccMatches (writeDest 0#3 v t).cc ((writeDest 0#3 v t).reg 0#3) ∧ (writeDest 0#3 v t).reg 7#3 = s.pc ∧
      frame [7#3, 0#3] [] s (writeDest 0#3 v t) := by
  obtain ⟨hcc, -, hquiet, -⟩ := writeDest_setsCc_and_keeps 0#3 v t
  refine ⟨hcc, ?_, frame_trans (frame_mono h (by simp) (by simp)) (frame_mono hquiet (by simp) (by simp))⟩
  rw [reg_writeDest, if_neg (by decide), hlink]

/-- The link written and the environment moved on. -/
theorem saveReturn_env_frame (s : State) (e : Env) : frame [7#3] [] s { saveReturn s with env := e } :=
  (saveReturn_quietFrame s).1

/-- Settles O29: the answer's word is written to R0 after the link, and nothing is emitted. -/
theorem getcReadsACharacterIntoR0 : Obligations.GetcReadsACharacterIntoR0 := by
  refine ⟨fun _ h => decode_trap h rfl, fun s u c hw hr => ⟨_, exec_trapGetc hw hr, ?_, ?_, ?_⟩⟩
  · rintro b rfl
    rw [reg_writeDest_same, inputWord_byte_toNat]
  · rintro rfl
    rw [reg_writeDest_same]
    rfl
  · obtain ⟨hcc, hlink, hframe⟩ :=
      writeAnswer_setsCc_and_keeps (inputWord s.cfg c) (reg_saveReturn_link s) (saveReturn_env_frame s u.env)
    exact ⟨hcc, hlink, rfl, rfl, rfl, rfl, hframe⟩

/-- Settles O32: the prompt is emitted before the answer is read, and the answer's byte before R0 is written. -/
theorem inPromptsReadsAndEchoes : Obligations.InPromptsReadsAndEchoes := by
  refine ⟨fun _ h => decode_trap h rfl, fun s u c hw hr => ⟨_, exec_trapIn hw hr, ?_, ?_, ?_⟩⟩
  · rintro b rfl
    rw [reg_writeDest_same, inputWord_byte_toNat]
    exact ⟨rfl, rfl⟩
  · rintro rfl
    rw [reg_writeDest_same]
    exact ⟨rfl, rfl⟩
  · obtain ⟨hcc, hlink, hframe⟩ :=
      writeAnswer_setsCc_and_keeps (inputWord s.cfg c) (reg_saveReturn_link s) (saveReturn_env_frame s u.env)
    exact ⟨hcc, hlink, rfl, rfl, rfl, hframe⟩

end Sys2Proof.Machine
end

section
/-! PROOFS. The string routines PUTS and PUTSP: the loop over a string's words, read raw or through the device
(44_trap.md rules R173, R175 and R178) -/

namespace Sys2Proof.Machine

/-! ## The loop (R173, R175) -/

/-- The word `j` places after the next is the word `j + 1` places on; addresses wrap. -/
theorem next_add_ofNat (a : Word) (j : Nat) : a + 1#16 + BitVec.ofNat 16 j = a + BitVec.ofNat 16 (j + 1) := by
  rw [BitVec.add_assoc, Nat.add_comm j 1, BitVec.ofNat_add]

theorem emitString_stop {chars : Word → List Byte} {a : Word} {s : State} (fuel : Nat)
    (h : (stringRead a s).1 = 0x0000#16) : emitString chars (fuel + 1) a s = some (stringRead a s).2 :=
  if_pos h

theorem emitString_more {chars : Word → List Byte} {a : Word} {s : State} (fuel : Nat)
    (h : (stringRead a s).1 ≠ 0x0000#16) :
    emitString chars (fuel + 1) a s =
      emitString chars fuel (a + 1#16) (outBytes (chars (stringRead a s).1) (stringRead a s).2) :=
  if_neg h

@[simp] theorem outBytes_nil (s : State) : outBytes [] s = s := by simp [outBytes]

@[simp] theorem outBytes_outBytes (bs bs' : List Byte) (s : State) :
    outBytes bs' (outBytes bs s) = outBytes (bs ++ bs') s := by simp [outBytes]

/-- Where no read polls, the loop emits the characters of the `k` words before the first zero word, and does nothing
else. -/
theorem emitString_of_length {chars : Word → List Byte} {k fuel : Nat} {a : Word} {s : State} (hf : k < fuel)
    (hne : ∀ j < k, storeRead (a + BitVec.ofNat 16 j) s ≠ 0x0000#16)
    (hz : storeRead (a + BitVec.ofNat 16 k) s = 0x0000#16)
    (hplain : ∀ j ≤ k, s.cfg.putsReadsViaDevice = false ∨ a + BitVec.ofNat 16 j ≠ s.cfg.kbsrAddr) :
    emitString chars fuel a s =
      some (outBytes ((List.range k).flatMap fun j => chars (storeRead (a + BitVec.ofNat 16 j) s)) s) := by
  induction k generalizing fuel a s with
  | zero =>
    obtain ⟨fuel, rfl⟩ := Nat.exists_eq_succ_of_ne_zero (Nat.ne_zero_of_lt hf)
    have hread : stringRead a s = (storeRead a s, s) := stringRead_plain (by simpa using hplain 0 le_rfl)
    rw [emitString_stop fuel (by simpa [hread] using hz), hread]
    simp
  | succ k ih =>
    obtain ⟨fuel, rfl⟩ := Nat.exists_eq_succ_of_ne_zero (Nat.ne_zero_of_lt hf)
    have hread : stringRead a s = (storeRead a s, s) := stringRead_plain (by simpa using hplain 0 (Nat.zero_le _))
    have hword : storeRead a s ≠ 0x0000#16 := by simpa using hne 0 (Nat.zero_lt_succ k)
    rw [emitString_more fuel (by simpa [hread] using hword), hread, ih (Nat.lt_of_succ_lt_succ hf)]
    · simp [next_add_ofNat, List.range_succ_eq_map, List.flatMap_map]
    · intro j hj
      rw [next_add_ofNat, storeRead_outBytes]
      exact hne (j + 1) (Nat.succ_lt_succ hj)
    · rw [next_add_ofNat, storeRead_outBytes]
      exact hz
    · intro j hj
      rw [next_add_ofNat, outBytes_cfg]
      exact hplain (j + 1) (Nat.succ_le_succ hj)

/-- Over memory without a zero word the loop with raw reads does not end, however long it is followed. -/
theorem emitString_of_no_zero {chars : Word → List Byte} {fuel : Nat} {a : Word} {s : State}
    (hraw : s.cfg.putsReadsViaDevice = false) (hne : ∀ b, storeRead b s ≠ 0x0000#16) :
    emitString chars fuel a s = none := by
  induction fuel generalizing a s with
  | zero => rfl
  | succ fuel ih =>
    have hread : stringRead a s = (storeRead a s, s) := stringRead_plain (.inl hraw)
    rw [emitString_more fuel (by simpa [hread] using hne a), hread]
    exact ih hraw hne

/-- Each turn of the loop is a step of the rule's relation. -/
theorem stringRun_of_emitString {chars : Word → List Byte} {fuel : Nat} {a : Word} {s t : State}
    (h : emitString chars fuel a s = some t) : StringRun chars a s t := by
  induction fuel generalizing a s with
  | zero => simp [emitString] at h
  | succ fuel ih =>
    by_cases h0 : (stringRead a s).1 = 0x0000#16
    · rw [emitString_stop fuel h0] at h
      obtain rfl := Option.some.inj h
      exact .stop h0
    · rw [emitString_more fuel h0] at h
      exact .more h0 (ih h)

/-! ## What PUTS and PUTSP share (R178) -/

theorem memWords_le_stringFuel (s : State) : memWords ≤ stringFuel s := by
  unfold stringFuel
  split
  · exact Nat.le_mul_of_pos_right _ (Nat.succ_pos _)
  · rw [Nat.mul_one]

theorem scriptedString_of_length {chars : Word → List Byte} {s : State} {k : Nat} (h : stringOfLength s k) :
    scriptedString chars s = some (outBytes ((List.range k).flatMap fun j => chars (stringWord s j)) s) := by
  obtain ⟨hk, hne, hz, hplain⟩ := h
  exact emitString_of_length (hk.trans_le (memWords_le_stringFuel s)) hne hz
    fun j hj => hplain.imp_right fun hp => hp j hj

@[simp] theorem stringWord_saveReturn (s : State) (j : Nat) : stringWord (saveReturn s) j = stringWord s j := by
  simp [stringWord]

/-- The link leaves the string as it is: R0, the cells and the parameters. -/
theorem stringOfLength_saveReturn {s : State} {k : Nat} (h : stringOfLength s k) :
    stringOfLength (saveReturn s) k := by
  simpa [stringOfLength] using h

theorem putString_of_length {s : State} {k : Nat} (chars : Word → List Byte) (h : stringOfLength s k) :
    putString chars (saveReturn s) =
      .next (outBytes ((List.range k).flatMap fun j => chars (stringWord s j)) (saveReturn s)) := by
  have hloop := scriptedString_of_length (chars := chars) (stringOfLength_saveReturn h)
  simp only [stringWord_saveReturn] at hloop
  simp only [putString, stringEnd, hloop, outFlush]

/-- With raw reads there is no poll to go on over, so a loop that does not end within the script never does. -/
theorem putString_of_no_zero {chars : Word → List Byte} {s : State} (hraw : s.cfg.putsReadsViaDevice = false)
    (hne : ∀ a, storeRead a s ≠ 0x0000#16) : putString chars s = .fault .stringNeverEnds := by
  have hloop : scriptedString chars s = none := emitString_of_no_zero hraw hne
  rcases putString_cases chars s with ⟨t, ht, -⟩ | ⟨hv, -⟩ | ⟨he, -⟩
  · simp [hloop] at ht
  · simp [hraw] at hv
  · exact he

/-- A next state is the loop's end; where it needed further polls, no scripted one had ended it, so all found input. -/
theorem stringRoutine_of_putString {chars : Word → List Byte} {s t : State} (h : putString chars s = .next t) :
    StringRoutine chars s t := by
  rcases putString_cases chars s with ⟨u, hu, he⟩ | ⟨hv, hn, u, hu, he⟩ | ⟨he, -⟩
  · obtain rfl := Host.Outcome.next.inj (he.symm.trans h)
    exact .inl (stringRun_of_emitString hu)
  · have hpolls : ∀ b ∈ s.env.polls, b = true := by
      intro b hb
      by_contra hfalse
      rw [Bool.not_eq_true] at hfalse
      obtain ⟨v, hend⟩ := scriptedString_of_false_poll (chars := chars) hv (hfalse ▸ hb)
      simp [hn] at hend
    obtain rfl := Host.Outcome.next.inj (he.symm.trans h)
    exact .inr ⟨hv, hpolls, furtherPolls s, u, stringRun_of_emitString hu, rfl⟩
  · simp [he] at h

/-! ## The statements -/

theorem exec_trapPuts (s : State) : exec .trapPuts s = putString putsChars (saveReturn s) := rfl

theorem exec_trapPutsp (s : State) : exec .trapPutsp s = putString putspChars (saveReturn s) := rfl

/-- R175: one byte or two, by the high byte. -/
theorem putspChars_eq_ite (w : Word) :
    putspChars w = if w.extractLsb' 8 8 = 0x00#8 then [w.extractLsb' 0 8]
      else [w.extractLsb' 0 8, w.extractLsb' 8 8] := by
  unfold putspChars
  split <;> rfl

/-- Settles O31: the loop over the string emits one byte a word, and is the rule's loop whichever way it reads. -/
theorem putsEmitsUpToTheFirstZeroWord : Obligations.PutsEmitsUpToTheFirstZeroWord := by
  refine ⟨fun _ h => decode_trap h rfl, fun s k hs => ?_, fun s => putString_of_no_zero (s := saveReturn s),
    fun s t => stringRoutine_of_putString⟩
  refine ⟨_, (exec_trapPuts s).trans (putString_of_length putsChars hs), ?_, rfl,
    trapFrame_outBytes (saveReturn_trapFrame s) _⟩
  rw [outBytes_out, saveReturn_out, List.map_eq_flatMap]
  rfl

/-- Settles O33: as for PUTS, with the high byte after the low one where it is not zero. -/
theorem putspEmitsBothBytesOfEachWord : Obligations.PutspEmitsBothBytesOfEachWord := by
  have hchars : putspChars = fun w => if w.extractLsb' 8 8 = 0x00#8 then [w.extractLsb' 0 8]
      else [w.extractLsb' 0 8, w.extractLsb' 8 8] := funext putspChars_eq_ite
  refine ⟨fun _ h => decode_trap h rfl, fun s k hs => ?_, fun s => putString_of_no_zero (s := saveReturn s),
    fun s t h => ?_⟩
  · refine ⟨_, (exec_trapPutsp s).trans (putString_of_length putspChars hs), ?_, rfl,
      trapFrame_outBytes (saveReturn_trapFrame s) _⟩
    rw [outBytes_out, saveReturn_out, hchars]
  · rw [← hchars]
    exact stringRoutine_of_putString h

end Sys2Proof.Machine
end

section
/-! PROOFS. Reset and the image loader (70_reset_and_hazards.md rules R220 and R222 to R229) -/

namespace Sys2Proof.Machine

/-! ## Reset (R220) -/

@[simp] theorem reg_reset (r : RegIdx) : State.reset.reg r = 0x0000#16 := Vector.getElem_replicate r.isLt

@[simp] theorem storeRead_reset (a : Word) : storeRead a State.reset = 0x0000#16 := rfl

/-- Settles O1: the reset state's own fields, and its registers and cells as they read. -/
theorem resetLeavesTheSpecifiedState : Obligations.ResetLeavesTheSpecifiedState :=
  ⟨reg_reset, rfl, rfl, storeRead_reset, rfl, rfl⟩

/-! ## The words of an image (R227, R228) -/

@[simp] theorem imageWords_wordBytes_append (w : Word) (bytes : List Byte) :
    imageWords (wordBytes w ++ bytes) = w :: imageWords bytes := by
  have hword : w.extractLsb' 8 8 ++ w.extractLsb' 0 8 = w := by
    rw [BitVec.extractLsb'_append_extractLsb'_eq_extractLsb' (by decide)]
    exact BitVec.extractLsb'_eq_self
  exact congrArg (· :: imageWords bytes) hword

theorem imageWords_of_length_le_one {odd : List Byte} (h : odd.length ≤ 1) : imageWords odd = [] := by
  match odd, h with
  | [], _ => rfl
  | [_], _ => rfl

theorem imageWords_flatMap_wordBytes_append (content : List Word) {odd : List Byte} (h : odd.length ≤ 1) :
    imageWords (content.flatMap wordBytes ++ odd) = content := by
  induction content with
  | nil => exact imageWords_of_length_le_one h
  | cons w ws ih => rw [List.flatMap_cons, List.append_assoc, imageWords_wordBytes_append, ih]

theorem loadImage_wordBytes (origin : Word) (content : List Word) {odd : List Byte} (s : State) (h : odd.length ≤ 1) :
    loadImage (wordBytes origin ++ content.flatMap wordBytes ++ odd) s =
      some (loadWords origin.toNat content s) := by
  unfold loadImage
  rw [List.append_assoc, imageWords_wordBytes_append, imageWords_flatMap_wordBytes_append content h]

/-! ## The cells after a load (R223, R224, R229) -/

theorem loadWords_cons_of_lt {a : Nat} (w : Word) (ws : List Word) (s : State) (h : a < memWords) :
    loadWords a (w :: ws) s = loadWords (a + 1) ws (memWrite (BitVec.ofNat 16 a) w s) := if_pos h

/-- R224: from address 65536 on, every word is dropped. -/
theorem loadWords_of_memWords_le {a : Nat} (ws : List Word) (s : State) (h : memWords ≤ a) :
    loadWords a ws s = s := by
  cases ws with
  | nil => rfl
  | cons w ws => exact if_neg h.not_gt

theorem loadWords_changes_mem_alone (a : Nat) (ws : List Word) (s : State) :
    ∃ m, loadWords a ws s = { s with mem := m } := by
  induction ws generalizing a s with
  | nil => exact ⟨s.mem, rfl⟩
  | cons w ws ih =>
    by_cases h : a < memWords
    · obtain ⟨m, hm⟩ := ih (a + 1) (memWrite (BitVec.ofNat 16 a) w s)
      exact ⟨m, (loadWords_cons_of_lt w ws s h).trans hm⟩
    · exact ⟨s.mem, loadWords_of_memWords_le _ s (not_lt.mp h)⟩

/-- A store to an address below 65536 meets the cell of that number. -/
theorem storeRead_memWrite_ofNat {a : Nat} (h : a < memWords) (s : State) (b v : Word) :
    storeRead b (memWrite (BitVec.ofNat 16 a) v s) = if b.toNat = a then v else storeRead b s := by
  have haddr : (BitVec.ofNat 16 a).toNat = a := Nat.mod_eq_of_lt h
  simp only [storeRead, memWrite_mem, readCell_writeCell, haddr]

/-- A cell from `a` on holds the word at its distance from `a`, where there is one; every other cell is kept. -/
theorem storeRead_loadWords (a : Nat) (ws : List Word) (s : State) (b : Word) :
    storeRead b (loadWords a ws s) =
      if a ≤ b.toNat then ws.getD (b.toNat - a) (storeRead b s) else storeRead b s := by
  induction ws generalizing a s with
  | nil => simp [loadWords]
  | cons w ws ih =>
    by_cases h : a < memWords
    · rw [loadWords_cons_of_lt w ws s h, ih, storeRead_memWrite_ofNat h]
      rcases lt_trichotomy b.toNat a with hlt | heq | hgt
      · rw [if_neg (Nat.lt_succ_of_lt hlt).not_ge, if_neg hlt.ne, if_neg hlt.not_ge]
      · simp [heq]
      · have hdist : b.toNat - a = b.toNat - (a + 1) + 1 := by omega
        rw [if_pos (Nat.succ_le_of_lt hgt), if_neg hgt.ne', if_pos hgt.le, hdist, List.getD_cons_succ]
    · have hb : ¬ a ≤ b.toNat := (b.isLt.trans_le (not_lt.mp h)).not_ge
      rw [loadWords_of_memWords_le _ s (not_lt.mp h), if_neg hb]

/-- Settles O47: the words read back from the bytes, then the cells that the load of the content words leaves. -/
theorem imageWordsAreLoadedFromTheOrigin : Obligations.ImageWordsAreLoadedFromTheOrigin := by
  intro origin content odd s hodd
  refine ⟨_, loadImage_wordBytes origin content s hodd, fun k hk hlt => ?_, fun a ha => ?_, ?_⟩
  · have hcell : (BitVec.ofNat 16 (origin.toNat + k)).toNat = origin.toNat + k := Nat.mod_eq_of_lt hlt
    rw [storeRead_loadWords, hcell, if_pos (Nat.le_add_right _ k), Nat.add_sub_cancel_left,
      List.getD_eq_getElem _ _ hk]
  · rw [storeRead_loadWords]
    rcases ha with hbelow | habove
    · exact if_neg hbelow.not_ge
    · rw [List.getD_eq_default _ _ (by omega), ite_self]
  · obtain ⟨m, hm⟩ := loadWords_changes_mem_alone origin.toNat content s
    rw [hm]
    exact ⟨rfl, rfl, rfl, rfl, rfl, rfl, rfl, rfl⟩

end Sys2Proof.Machine
end

section
/-! PROOFS. Decoder and encoder against each other (30_encoding.md rules R80 to R90) -/

namespace Sys2Proof.Machine

/-! ## Decoding an encoded instruction (R80)

One lemma for each layout of the operand bits: the fields found in a word that encodes it. -/

/-- The first of three fields is found above the other two. -/
theorem extractLsb'_append_high {n m k : Nat} (a : BitVec n) (b : BitVec m) (c : BitVec k) :
    (a ++ b ++ c).extractLsb' (k + m) n = a := by
  rw [BitVec.extractLsb'_append_eq_of_le (Nat.le_add_right k m), Nat.add_sub_cancel_left]
  exact BitVec.extractLsb'_append_eq_left

theorem fields_of_reg_off9 {i : Instr} {a : BitVec 3} {off : BitVec 9} (h : operandBits i = a ++ off) :
    drOf (encode i) = a ∧ nzpOf (encode i) = a ∧ off9Of (encode i) = off := by
  have ha : (encode i).extractLsb' 9 3 = a := by
    rw [extractLsb'_encode i (by decide), h]
    exact BitVec.extractLsb'_append_eq_left
  have hoff : (encode i).extractLsb' 0 9 = off := by
    rw [extractLsb'_encode i (by decide), h]
    exact BitVec.extractLsb'_append_eq_right
  exact ⟨ha, ha, hoff⟩

theorem fields_of_reg_reg_low6 {i : Instr} {a b : BitVec 3} {low : BitVec 6} (h : operandBits i = a ++ b ++ low) :
    drOf (encode i) = a ∧ sr1Of (encode i) = b ∧ off6Of (encode i) = low := by
  refine ⟨?_, ?_, ?_⟩
  · rw [drOf, extractLsb'_encode i (by decide), h]
    exact extractLsb'_append_high ..
  · rw [sr1Of, extractLsb'_encode i (by decide), h]
    exact extractLsb'_append_mid ..
  · rw [off6Of, extractLsb'_encode i (by decide), h]
    exact BitVec.extractLsb'_append_eq_right

/-- The two forms of ADD and AND, the flag the top bit of the third field. -/
theorem fields_of_reg_form {i : Instr} {a b c : BitVec 3} (h : operandBits i = a ++ b ++ 0b000#3 ++ c) :
    immFlagOf (encode i) = 0#1 ∧ drOf (encode i) = a ∧ sr1Of (encode i) = b ∧ sr2Of (encode i) = c := by
  refine ⟨?_, ?_, ?_, ?_⟩
  · rw [immFlagOf, extractLsb'_encode i (by decide), h]
    exact (BitVec.extractLsb'_append_eq_of_le (by decide)).trans
      (BitVec.extractLsb'_append_eq_of_add_le (by decide))
  · rw [drOf, extractLsb'_encode i (by decide), h]
    exact (BitVec.extractLsb'_append_eq_of_le (by decide)).trans (extractLsb'_append_high ..)
  · rw [sr1Of, extractLsb'_encode i (by decide), h]
    exact (BitVec.extractLsb'_append_eq_of_le (by decide)).trans (extractLsb'_append_mid ..)
  · rw [sr2Of, extractLsb'_encode i (by decide), h]
    exact BitVec.extractLsb'_append_eq_right

theorem fields_of_imm_form {i : Instr} {a b : BitVec 3} {imm : BitVec 5} (h : operandBits i = a ++ b ++ 1#1 ++ imm) :
    immFlagOf (encode i) = 1#1 ∧ drOf (encode i) = a ∧ sr1Of (encode i) = b ∧ imm5Of (encode i) = imm := by
  refine ⟨?_, ?_, ?_, ?_⟩
  · rw [immFlagOf, extractLsb'_encode i (by decide), h]
    exact extractLsb'_append_mid ..
  · rw [drOf, extractLsb'_encode i (by decide), h]
    exact (BitVec.extractLsb'_append_eq_of_le (by decide)).trans (extractLsb'_append_high ..)
  · rw [sr1Of, extractLsb'_encode i (by decide), h]
    exact (BitVec.extractLsb'_append_eq_of_le (by decide)).trans (extractLsb'_append_mid ..)
  · rw [imm5Of, extractLsb'_encode i (by decide), h]
    exact BitVec.extractLsb'_append_eq_right

theorem fields_of_jsr (off : BitVec 11) :
    longFlagOf (encode (.jsr off)) = 1#1 ∧ off11Of (encode (.jsr off)) = off := by
  refine ⟨?_, ?_⟩
  · rw [longFlagOf, extractLsb'_encode _ (by decide)]
    exact BitVec.extractLsb'_append_eq_left
  · rw [off11Of, extractLsb'_encode _ (by decide)]
    exact BitVec.extractLsb'_append_eq_right

theorem longFlagOf_encode_jsrr (base : RegIdx) : longFlagOf (encode (.jsrr base)) = 0#1 := by
  rw [longFlagOf, extractLsb'_encode _ (by decide)]
  exact (BitVec.extractLsb'_append_eq_of_le (by decide)).trans (BitVec.extractLsb'_append_eq_of_le (by decide))

theorem decode_encode_trap {i : Instr} {v : BitVec 8} (hop : opcode i = 0xF#4) (h : operandBits i = 0x0#4 ++ v) :
    decode (encode i) = decodeTrap v := by
  have hv : trapvectOf (encode i) = v := by
    rw [trapvectOf, extractLsb'_encode i (by decide), h]
    exact BitVec.extractLsb'_append_eq_right
  rw [decode_opF ((opOf_encode i).trans hop), hv]

/-- The one check on an operand is R85's: the vector of a TRAP with any other vector is none of the six. -/
theorem wf_trapOther {v : BitVec 8} : (Instr.trapOther v).wf = true ↔ v ∉ serviceVectors := by
  simp [Instr.wf]

/-- Settles O4: the opcode selects the row, and each layout's fields are found where the encoder put them. -/
theorem decodeOfEncodeIsTheInstruction : Obligations.DecodeOfEncodeIsTheInstruction := by
  intro i hwf
  have hop := opOf_encode i
  cases i with
  | br nzp off =>
    obtain ⟨-, hnzp, hoff⟩ := fields_of_reg_off9 (i := .br nzp off) rfl
    rw [decode_op0 hop, hnzp, hoff]
  | addReg dr sr1 sr2 =>
    obtain ⟨hflag, hdr, hsr1, hsr2⟩ := fields_of_reg_form (i := .addReg dr sr1 sr2) rfl
    rw [decode_op1 hop, hflag, hdr, hsr1, hsr2, if_neg (by decide)]
  | addImm dr sr1 imm =>
    obtain ⟨hflag, hdr, hsr1, himm⟩ := fields_of_imm_form (i := .addImm dr sr1 imm) rfl
    rw [decode_op1 hop, if_pos hflag, hdr, hsr1, himm]
  | ld dr off =>
    obtain ⟨hdr, -, hoff⟩ := fields_of_reg_off9 (i := .ld dr off) rfl
    rw [decode_op2 hop, hdr, hoff]
  | st sr off =>
    obtain ⟨hsr, -, hoff⟩ := fields_of_reg_off9 (i := .st sr off) rfl
    rw [decode_op3 hop, hsr, hoff]
  | jsr off =>
    obtain ⟨hflag, hoff⟩ := fields_of_jsr off
    rw [decode_op4 hop, if_pos hflag, hoff]
  | jsrr base =>
    obtain ⟨-, hbase, -⟩ := fields_of_reg_reg_low6 (i := .jsrr base) rfl
    rw [decode_op4 hop, longFlagOf_encode_jsrr, hbase, if_neg (by decide)]
  | andReg dr sr1 sr2 =>
    obtain ⟨hflag, hdr, hsr1, hsr2⟩ := fields_of_reg_form (i := .andReg dr sr1 sr2) rfl
    rw [decode_op5 hop, hflag, hdr, hsr1, hsr2, if_neg (by decide)]
  | andImm dr sr1 imm =>
    obtain ⟨hflag, hdr, hsr1, himm⟩ := fields_of_imm_form (i := .andImm dr sr1 imm) rfl
    rw [decode_op5 hop, if_pos hflag, hdr, hsr1, himm]
  | ldr dr base off =>
    obtain ⟨hdr, hbase, hoff⟩ := fields_of_reg_reg_low6 (i := .ldr dr base off) rfl
    rw [decode_op6 hop, hdr, hbase, hoff]
  | str sr base off =>
    obtain ⟨hsr, hbase, hoff⟩ := fields_of_reg_reg_low6 (i := .str sr base off) rfl
    rw [decode_op7 hop, hsr, hbase, hoff]
  | rsv8 => exact decode_op8 hop
  | not dr sr1 =>
    obtain ⟨hdr, hsr1, -⟩ := fields_of_reg_reg_low6 (i := .not dr sr1) rfl
    rw [decode_op9 hop, hdr, hsr1]
  | ldi dr off =>
    obtain ⟨hdr, -, hoff⟩ := fields_of_reg_off9 (i := .ldi dr off) rfl
    rw [decode_opA hop, hdr, hoff]
  | sti sr off =>
    obtain ⟨hsr, -, hoff⟩ := fields_of_reg_off9 (i := .sti sr off) rfl
    rw [decode_opB hop, hsr, hoff]
  | jmp base =>
    obtain ⟨-, hbase, -⟩ := fields_of_reg_reg_low6 (i := .jmp base) rfl
    rw [decode_opC hop, hbase]
  | rsv13 => exact decode_opD hop
  | lea dr off =>
    obtain ⟨hdr, -, hoff⟩ := fields_of_reg_off9 (i := .lea dr off) rfl
    rw [decode_opE hop, hdr, hoff]
  | trapGetc => exact decode_encode_trap (v := vectGetc) rfl rfl
  | trapOut => exact decode_encode_trap (v := vectOut) rfl rfl
  | trapPuts => exact decode_encode_trap (v := vectPuts) rfl rfl
  | trapIn => exact decode_encode_trap (v := vectIn) rfl rfl
  | trapPutsp => exact decode_encode_trap (v := vectPutsp) rfl rfl
  | trapHalt => exact decode_encode_trap (v := vectHalt) rfl rfl
  | trapOther v => exact (decode_encode_trap rfl rfl).trans (decodeTrap_of_unlisted (wf_trapOther.mp hwf))

/-! ## Every word is well-formed (R90) -/

theorem decodeTrap_wf (v : BitVec 8) : (decodeTrap v).wf = true := by
  by_cases h : v ∈ serviceVectors
  · have hlisted : ∀ u ∈ serviceVectors, (decodeTrap u).wf = true := by decide
    exact hlisted v h
  · rw [decodeTrap_of_unlisted h]
    exact wf_trapOther.mpr h

/-- Settles O5: only a TRAP has a check to pass, and a listed vector does not reach the row for the others. -/
theorem everyWordDecodesToAWellFormedInstruction : Obligations.EveryWordDecodesToAWellFormedInstruction := by
  intro w
  rcases opOf_cases w with h | h | h | h | h | h | h | h | h | h | h | h | h | h | h | h
  · rw [decode_op0 h]; rfl
  · rw [decode_op1 h]; split <;> rfl
  · rw [decode_op2 h]; rfl
  · rw [decode_op3 h]; rfl
  · rw [decode_op4 h]; split <;> rfl
  · rw [decode_op5 h]; split <;> rfl
  · rw [decode_op6 h]; rfl
  · rw [decode_op7 h]; rfl
  · rw [decode_op8 h]; rfl
  · rw [decode_op9 h]; rfl
  · rw [decode_opA h]; rfl
  · rw [decode_opB h]; rfl
  · rw [decode_opC h]; rfl
  · rw [decode_opD h]; rfl
  · rw [decode_opE h]; rfl
  · rw [decode_opF h]; exact decodeTrap_wf _

/-! ## Encoding a decoded word (R86) -/

/-- Two adjacent fields of a word, joined. -/
theorem extractLsb'_append_adjacent {n : Nat} (w : BitVec n) (start len len' : Nat) :
    w.extractLsb' (start + len) len' ++ w.extractLsb' start len = w.extractLsb' start (len' + len) :=
  BitVec.extractLsb'_append_extractLsb'_eq_extractLsb' rfl

/-- The twelve bits below the opcode. -/
def operandsOf (w : Word) : BitVec 12 := w.extractLsb' 0 12

theorem opOf_append_operandsOf (w : Word) : opOf w ++ operandsOf w = w :=
  (extractLsb'_append_adjacent w 0 12 4).trans BitVec.extractLsb'_eq_self

theorem reg_off9_of_operands (w : Word) : operandsOf w = drOf w ++ off9Of w :=
  (extractLsb'_append_adjacent w 0 9 3).symm

theorem reg_reg_low6_of_operands (w : Word) : operandsOf w = drOf w ++ sr1Of w ++ off6Of w := by
  have h : drOf w ++ sr1Of w = w.extractLsb' 6 6 := extractLsb'_append_adjacent w 6 3 3
  rw [h]
  exact (extractLsb'_append_adjacent w 0 6 6).symm

theorem reg_form_of_operands (w : Word) :
    operandsOf w = drOf w ++ sr1Of w ++ w.extractLsb' 3 3 ++ sr2Of w := by
  have htop : drOf w ++ sr1Of w = w.extractLsb' 6 6 := extractLsb'_append_adjacent w 6 3 3
  have hmid : w.extractLsb' 6 6 ++ w.extractLsb' 3 3 = w.extractLsb' 3 9 := extractLsb'_append_adjacent w 3 3 6
  rw [htop, hmid]
  exact (extractLsb'_append_adjacent w 0 3 9).symm

theorem imm_form_of_operands {w : Word} (hflag : immFlagOf w = 1#1) :
    operandsOf w = drOf w ++ sr1Of w ++ 1#1 ++ imm5Of w := by
  have htop : drOf w ++ sr1Of w = w.extractLsb' 6 6 := extractLsb'_append_adjacent w 6 3 3
  have hmid : w.extractLsb' 6 6 ++ immFlagOf w = w.extractLsb' 5 7 := extractLsb'_append_adjacent w 5 1 6
  rw [htop, ← hflag, hmid]
  exact (extractLsb'_append_adjacent w 0 5 7).symm

theorem jsr_of_operands {w : Word} (hflag : longFlagOf w = 1#1) : operandsOf w = 1#1 ++ off11Of w := by
  rw [← hflag]
  exact (extractLsb'_append_adjacent w 0 11 1).symm

/-- Where the opcode is the word's own and the operand bits agree under the mask, so do the words. -/
theorem encode_agrees {i : Instr} {w m : Word} (hop : opcode i = opOf w)
    (h : operandBits i &&& ~~~(operandsOf m) = operandsOf w &&& ~~~(operandsOf m)) :
    encode i &&& ~~~m = w &&& ~~~m := by
  have hm : ~~~m = ~~~(opOf m) ++ ~~~(operandsOf m) := by rw [← BitVec.not_append, opOf_append_operandsOf]
  calc encode i &&& ~~~m
    _ = (opcode i &&& ~~~(opOf m)) ++ (operandBits i &&& ~~~(operandsOf m)) := by rw [hm]; exact BitVec.and_append
    _ = (opOf w &&& ~~~(opOf m)) ++ (operandsOf w &&& ~~~(operandsOf m)) := by rw [hop, h]
    _ = (opOf w ++ operandsOf w) &&& ~~~m := by rw [hm]; exact BitVec.and_append.symm
    _ = w &&& ~~~m := by rw [opOf_append_operandsOf]

/-- Agreement under a mask, field by field. -/
theorem append_agrees {n k : Nat} {x x' y : BitVec n} {u u' v : BitVec k} (hx : x &&& y = x' &&& y)
    (hu : u &&& v = u' &&& v) : (x ++ u) &&& (y ++ v) = (x' ++ u') &&& (y ++ v) := by
  rw [BitVec.and_append, BitVec.and_append, hx, hu]

/-- Words with the same opcode and the same operand bits agree under every mask. -/
theorem encode_agrees_of_operands {i : Instr} {w : Word} (m : Word) (hop : opcode i = opOf w)
    (h : operandsOf w = operandBits i) : encode i &&& ~~~m = w &&& ~~~m :=
  encode_agrees hop (by rw [h])

theorem flag_eq_zero {b : BitVec 1} (h : b ≠ 1#1) : b = 0#1 := by
  revert b
  decide

/-- Where the top one of three bits is clear, nothing is left of them when the other two are ignored. -/
theorem zero_agrees_of_top_clear {f : BitVec 3} (h : f.extractLsb' 2 1 = 0#1) :
    0b000#3 &&& 0b100#3 = f &&& 0b100#3 := by
  revert f
  decide

/-- The register forms of ADD and AND ignore the two bits below the flag. -/
theorem encode_agrees_reg_form {i : Instr} {w : Word} (hop : opcode i = opOf w) (hflag : immFlagOf w = 0#1)
    (h : operandBits i = drOf w ++ sr1Of w ++ 0b000#3 ++ sr2Of w) :
    encode i &&& ~~~0x0018#16 = w &&& ~~~0x0018#16 := by
  have hthird : (w.extractLsb' 3 3).extractLsb' 2 1 = 0#1 := by
    rw [extractLsb'_extractLsb' w (by decide)]
    exact hflag
  have hm : ~~~(operandsOf 0x0018#16) = 0b111111#6 ++ 0b100#3 ++ 0b111#3 := by decide
  apply encode_agrees hop
  rw [h, hm, reg_form_of_operands]
  exact append_agrees (append_agrees rfl (zero_agrees_of_top_clear hthird)) rfl

/-- JSRR and JMP ignore the low six bits, and of the three above the base all but a flag that is clear. -/
theorem encode_agrees_base {i : Instr} {w m : Word} {top : BitVec 3} (hop : opcode i = opOf w)
    (hm : ~~~(operandsOf m) = top ++ 0b111#3 ++ 0b000000#6) (htop : 0b000#3 &&& top = drOf w &&& top)
    (h : operandBits i = 0b000#3 ++ sr1Of w ++ 0b000000#6) : encode i &&& ~~~m = w &&& ~~~m := by
  apply encode_agrees hop
  rw [h, hm, reg_reg_low6_of_operands]
  exact append_agrees (append_agrees htop rfl) (by rw [BitVec.and_zero, BitVec.and_zero])

theorem encode_agrees_not {w : Word} (hop : opOf w = 0x9#4) :
    encode (.not (drOf w) (sr1Of w)) &&& ~~~0x003F#16 = w &&& ~~~0x003F#16 := by
  have hm : ~~~(operandsOf 0x003F#16) = 0b111111#6 ++ 0b000000#6 := by decide
  refine encode_agrees (i := .not (drOf w) (sr1Of w)) hop.symm ?_
  rw [hm, reg_reg_low6_of_operands]
  exact append_agrees rfl (by rw [BitVec.and_zero, BitVec.and_zero])

/-- R85: the vector alone is encoded. -/
theorem opcode_decodeTrap (v : BitVec 8) : opcode (decodeTrap v) = 0xF#4 := by
  unfold decodeTrap
  split_ifs <;> rfl

theorem operandBits_decodeTrap (v : BitVec 8) : operandBits (decodeTrap v) = 0x0#4 ++ v := by
  unfold decodeTrap
  split_ifs with h h h h h h
  case neg => rfl
  all_goals rw [h]; rfl

theorem encode_agrees_trap {w : Word} (hop : opOf w = 0xF#4) :
    encode (decodeTrap (trapvectOf w)) &&& ~~~0x0F00#16 = w &&& ~~~0x0F00#16 := by
  have hm : ~~~(operandsOf 0x0F00#16) = 0x0#4 ++ 0xFF#8 := by decide
  have hw : operandsOf w = w.extractLsb' 8 4 ++ trapvectOf w := (extractLsb'_append_adjacent w 0 8 4).symm
  apply encode_agrees ((opcode_decodeTrap _).trans hop.symm)
  rw [operandBits_decodeTrap, hm, hw]
  exact append_agrees (by rw [BitVec.and_zero, BitVec.and_zero]) rfl

theorem encode_agrees_reserved {i : Instr} {w : Word} (hop : opcode i = opOf w) :
    encode i &&& ~~~0x0FFF#16 = w &&& ~~~0x0FFF#16 := by
  have hm : ~~~(operandsOf 0x0FFF#16) = 0x000#12 := by decide
  apply encode_agrees hop
  rw [hm, BitVec.and_zero, BitVec.and_zero]

/-- Settles O7: form by form, an operand's bits are the encoder's own, and what the encoder fills in is ignored. -/
theorem encodeOfDecodeKeepsEveryCheckedBit : Obligations.EncodeOfDecodeKeepsEveryCheckedBit := by
  intro w
  rcases opOf_cases w with h | h | h | h | h | h | h | h | h | h | h | h | h | h | h | h
  · rw [decode_op0 h]
    exact encode_agrees_of_operands _ h.symm (reg_off9_of_operands w)
  · rw [decode_op1 h]
    split
    next hf => exact encode_agrees_of_operands _ h.symm (imm_form_of_operands hf)
    next hf =>
      have hi : ignoredBits w = 0x0018#16 := by simp [ignoredBits, h, flag_eq_zero hf]
      rw [hi]
      exact encode_agrees_reg_form h.symm (flag_eq_zero hf) rfl
  · rw [decode_op2 h]
    exact encode_agrees_of_operands _ h.symm (reg_off9_of_operands w)
  · rw [decode_op3 h]
    exact encode_agrees_of_operands _ h.symm (reg_off9_of_operands w)
  · rw [decode_op4 h]
    split
    next hf => exact encode_agrees_of_operands _ h.symm (jsr_of_operands hf)
    next hf =>
      have hi : ignoredBits w = 0x063F#16 := by simp [ignoredBits, h, flag_eq_zero hf]
      have hflag : (drOf w).extractLsb' 2 1 = 0#1 := by
        rw [drOf, extractLsb'_extractLsb' w (by decide)]
        exact flag_eq_zero hf
      rw [hi]
      exact encode_agrees_base h.symm (by decide) (zero_agrees_of_top_clear hflag) rfl
  · rw [decode_op5 h]
    split
    next hf => exact encode_agrees_of_operands _ h.symm (imm_form_of_operands hf)
    next hf =>
      have hi : ignoredBits w = 0x0018#16 := by simp [ignoredBits, h, flag_eq_zero hf]
      rw [hi]
      exact encode_agrees_reg_form h.symm (flag_eq_zero hf) rfl
  · rw [decode_op6 h]
    exact encode_agrees_of_operands _ h.symm (reg_reg_low6_of_operands w)
  · rw [decode_op7 h]
    exact encode_agrees_of_operands _ h.symm (reg_reg_low6_of_operands w)
  · have hi : ignoredBits w = 0x0FFF#16 := by simp [ignoredBits, h]
    rw [decode_op8 h, hi]
    exact encode_agrees_reserved h.symm
  · have hi : ignoredBits w = 0x003F#16 := by simp [ignoredBits, h]
    rw [decode_op9 h, hi]
    exact encode_agrees_not h
  · rw [decode_opA h]
    exact encode_agrees_of_operands _ h.symm (reg_off9_of_operands w)
  · rw [decode_opB h]
    exact encode_agrees_of_operands _ h.symm (reg_off9_of_operands w)
  · have hi : ignoredBits w = 0x0E3F#16 := by simp [ignoredBits, h]
    rw [decode_opC h, hi]
    exact encode_agrees_base (top := 0b000#3) h.symm (by decide) (by rw [BitVec.and_zero, BitVec.and_zero]) rfl
  · have hi : ignoredBits w = 0x0FFF#16 := by simp [ignoredBits, h]
    rw [decode_opD h, hi]
    exact encode_agrees_reserved h.symm
  · rw [decode_opE h]
    exact encode_agrees_of_operands _ h.symm (reg_off9_of_operands w)
  · have hi : ignoredBits w = 0x0F00#16 := by simp [ignoredBits, h]
    rw [decode_opF h, hi]
    exact encode_agrees_trap h

/-- Settles O8: nine words of the spec, each decoded. -/
theorem wordsOfTheSpecDecode : Obligations.WordsOfTheSpecDecode := by
  unfold Obligations.WordsOfTheSpecDecode
  decide

end Sys2Proof.Machine
end

section
/-! PROOFS. The decoder's signals (40_fetch_decode.md rule R120) -/

namespace Sys2Proof.Machine

/-! What an instruction does is told by its opcode, but for a TRAP, and JSR and JSRR, which share one. -/

theorem regWrites_isEmpty_eq (i : Instr) :
    (!(regWrites i).isEmpty) = (0x4#4 :: 0xF#4 :: definingOps).contains (opcode i) := by
  cases i <;> rfl

theorem usesPointer_eq (i : Instr) : usesPointer i = [0xA#4, 0xB#4].contains (opcode i) := by
  cases i <;> rfl

theorem storedCells_isEmpty_eq (i : Instr) (s : State) :
    (!(storedCells i s).isEmpty) = [0x3#4, 0x7#4, 0xB#4].contains (opcode i) := by
  cases i <;> rfl

theorem writesPc_iff (i : Instr) : pcSource i ≠ .seq ↔ writesPc i = true := by
  cases i <;> simp [pcSource, writesPc]

theorem reserved_iff (i : Instr) : [0x8#4, 0xD#4].contains (opcode i) = true ↔ i = .rsv8 ∨ i = .rsv13 := by
  cases i <;> simp [opcode]

theorem definedReg_isSome_eq {i : Instr} (h : opcode i ≠ 0xF#4) :
    (definedReg i).isSome = definingOps.contains (opcode i) := by
  cases i with
  | trapGetc | trapOut | trapPuts | trapIn | trapPutsp | trapHalt | trapOther => exact absurd rfl h
  | _ => rfl

theorem readsMemory_eq {i : Instr} (h : opcode i ≠ 0xF#4) :
    readsMemory i = [0x2#4, 0x6#4, 0xA#4, 0xB#4].contains (opcode i) := by
  cases i with
  | trapGetc | trapOut | trapPuts | trapIn | trapPutsp | trapHalt | trapOther => exact absurd rfl h
  | _ => rfl

theorem definedReg_decodeTrap (v : BitVec 8) :
    (definedReg (decodeTrap v)).isSome = [vectGetc, vectIn].contains v := by
  by_cases h : v ∈ serviceVectors
  · have hlisted : ∀ u ∈ serviceVectors, (definedReg (decodeTrap u)).isSome = [vectGetc, vectIn].contains u := by
      decide
    exact hlisted v h
  · have hsub : [vectGetc, vectIn] ⊆ serviceVectors := by decide
    have hnot : v ∉ [vectGetc, vectIn] := fun hv => h (hsub hv)
    simpa [decodeTrap_of_unlisted h, definedReg] using hnot

theorem readsMemory_decodeTrap (v : BitVec 8) :
    readsMemory (decodeTrap v) = [vectPuts, vectPutsp].contains v := by
  by_cases h : v ∈ serviceVectors
  · have hlisted : ∀ u ∈ serviceVectors, readsMemory (decodeTrap u) = [vectPuts, vectPutsp].contains u := by decide
    exact hlisted v h
  · have hsub : [vectPuts, vectPutsp] ⊆ serviceVectors := by decide
    have hnot : v ∉ [vectPuts, vectPutsp] := fun hv => h (hsub hv)
    simpa [decodeTrap_of_unlisted h, readsMemory] using hnot

/-- The opcode is a checked bit field of every form. -/
theorem opcode_decode (w : Word) : opcode (decode w) = opOf w := by
  have hm : (~~~(ignoredBits w)).extractLsb' 12 4 = BitVec.allOnes 4 := by
    rcases ignoredBits_cases w with h | ⟨-, -, h⟩ | ⟨-, h⟩ | ⟨-, h⟩ | ⟨-, -, h⟩ | ⟨-, h⟩ | ⟨-, h⟩ <;>
      (rw [h]; decide)
  rw [← opOf_encode]
  exact (extractLsb'_eq_of_agree (encodeOfDecodeKeepsEveryCheckedBit w) hm).symm

theorem ccWrite_decode (w : Word) : (signals w).ccWrite = (definedReg (decode w)).isSome := by
  by_cases h : opOf w = 0xF#4
  · rw [decode_opF h, definedReg_decodeTrap]
    simp [signals, h, definingOps]
  · rw [definedReg_isSome_eq (by rwa [opcode_decode]), opcode_decode]
    simp [signals, h]

theorem memRead_decode (w : Word) : (signals w).memRead = readsMemory (decode w) := by
  by_cases h : opOf w = 0xF#4
  · rw [decode_opF h, readsMemory_decodeTrap]
    simp [signals, h]
  · rw [readsMemory_eq (by rwa [opcode_decode]), opcode_decode]
    simp [signals, h]

theorem memWrite_iff (w : Word) : (signals w).memWrite = true ↔ ∀ s : State, storedCells (decode w) s ≠ [] := by
  have h : ∀ s : State, (signals w).memWrite = !(storedCells (decode w) s).isEmpty := fun s => by
    rw [storedCells_isEmpty_eq, opcode_decode]
    rfl
  constructor
  · intro hw s
    simpa [hw] using h s
  · intro hs
    rw [h State.reset, List.isEmpty_eq_false_iff.mpr (hs State.reset)]
    rfl

/-- R140 to R143: the opcode tells where `pc` comes from, and for JSR and JSRR its flag. -/
theorem pcSource_eq {i : Instr} (h : opcode i ≠ 0x4#4) :
    pcSource i = if opcode i = 0x0#4 then .brTarget else if opcode i = 0xC#4 then .reg else .seq := by
  cases i with
  | jsr | jsrr => exact absurd rfl h
  | _ => rfl

theorem pcSrc_decode (w : Word) : (signals w).pcSrc = pcSource (decode w) := by
  by_cases h : opOf w = 0x4#4
  · rw [decode_op4 h]
    by_cases hf : longFlagOf w = 1#1 <;> simp [signals, h, hf, pcSource]
  · rw [pcSource_eq (by rwa [opcode_decode]), opcode_decode]
    simp only [signals, h, if_false]

theorem extractLsb'_one_eq_one_iff (w : Word) (k : Nat) : w.extractLsb' k 1 = 1#1 ↔ w.getLsbD k = true := by
  rw [BitVec.eq_of_getLsbD_eq_iff]
  simp

/-- Settles O60: the fields are the word's bits, and each control signal is the table's, by opcode, flag or vector. -/
theorem signalsDescribeTheDecodedInstruction : Obligations.SignalsDescribeTheDecodedInstruction := by
  intro w
  have hop : (opOf w).toNat = w.toNat / 4096 := by
    have hw := w.isLt
    rw [opOf, BitVec.extractLsb'_toNat, Nat.shiftRight_eq_div_pow]
    omega
  have hvect : (trapvectOf w).toNat = w.toNat % 256 := BitVec.extractLsb'_toNat 0 8 w
  refine ⟨⟨hop, rfl, rfl, rfl, rfl, extractLsb'_one_eq_one_iff w 5, extractLsb'_one_eq_one_iff w 11, hvect⟩,
    ⟨rfl, rfl, rfl, rfl⟩, ?_, ccWrite_decode w, memRead_decode w, memWrite_iff w, ?_, pcSrc_decode w, ?_, ?_⟩
  · rw [regWrites_isEmpty_eq, opcode_decode]
    rfl
  · rw [usesPointer_eq, opcode_decode]
    rfl
  · rw [pcSrc_decode, writesPc_iff]
  · rw [← reserved_iff, opcode_decode]
    rfl

end Sys2Proof.Machine
end

section
/-! PROOFS. What any instruction and any step may change: the tables of who writes what, the run state, and the
invariant (10_state.md rules R22, R25, R31; 20_memory.md rules R53, R57, R61) -/

namespace Sys2Proof.Machine

/-! ## The calculus of changes

Every operation an instruction is made of adds a change that a list or a flag names; the run state and the environment
may always change. -/

/-- From `s` to `t` only the registers and the cells listed changed, `pc` only where `pcMoves`; `out` only grew, and
only where `emits`; and memory kept its canonical form. -/
structure Changes (regs : List RegIdx) (cells : List Word) (pcMoves emits : Bool) (s t : State) : Prop where
  frame : frame regs cells s t
  pc : pcMoves = false → t.pc = s.pc
  out : ∃ bs, t.out = s.out ++ bs ∧ (emits = false → bs = [])
  wf : s.mem.wf → t.mem.wf

namespace Changes

variable {regs : List RegIdx} {cells : List Word} {pcMoves emits : Bool} {s t u : State}

theorem refl (s : State) : Changes regs cells pcMoves emits s s where
  frame := ⟨fun _ _ => rfl, fun _ _ => rfl, rfl, rfl⟩
  pc _ := rfl
  out := ⟨[], (List.append_nil _).symm, fun _ => rfl⟩
  wf := id

/-- The parts that no change speaks of: `cc`, the run state and the environment. -/
theorem rest (h : Changes regs cells pcMoves emits s t) (c : CC) (r : RunState) (e : Env) :
    Changes regs cells pcMoves emits s { t with cc := c, run := r, env := e } where
  frame := h.frame
  pc := h.pc
  out := h.out
  wf := h.wf

theorem setReg (h : Changes regs cells pcMoves emits s t) {r : RegIdx} (v : Word) (hr : r ∈ regs) :
    Changes regs cells pcMoves emits s (t.setReg r v) where
  frame := by
    obtain ⟨hregs, hcells, hir, hcfg⟩ := h.frame
    refine ⟨fun q hq => ?_, hcells, hir, hcfg⟩
    have hne : q ≠ r := fun e => hq (e ▸ hr)
    rw [reg_setReg_other hne, hregs q hq]
  pc := h.pc
  out := h.out
  wf := h.wf

theorem writeDest (h : Changes regs cells pcMoves emits s t) {r : RegIdx} (v : Word) (hr : r ∈ regs) :
    Changes regs cells pcMoves emits s (writeDest r v t) :=
  (h.setReg v hr).rest (ccOf v) t.run t.env

theorem setPc (h : Changes regs cells true emits s t) (v : Word) : Changes regs cells true emits s (t.setPc v) where
  frame := h.frame
  pc := nofun
  out := h.out
  wf := h.wf

theorem memWrite (h : Changes regs cells pcMoves emits s t) {a : Word} (v : Word) (ha : a ∈ cells) :
    Changes regs cells pcMoves emits s (memWrite a v t) where
  frame := frame_memWrite v ha h.frame
  pc := h.pc
  out := h.out
  wf hw := memWrite_wf a v (h.wf hw)

theorem outBytes (h : Changes regs cells pcMoves true s t) (bs : List Byte) :
    Changes regs cells pcMoves true s (outBytes bs t) where
  frame := h.frame
  pc := h.pc
  out := by
    obtain ⟨bs', hout, -⟩ := h.out
    exact ⟨bs' ++ bs, by rw [outBytes_out, hout, List.append_assoc], nofun⟩
  wf := h.wf

/-- A read changes at most the keyboard cells and the environment (R52). -/
theorem cellsKept (h : Changes regs cells pcMoves emits s t) {m : Memory} (e : Env) (hwf : t.mem.wf → m.wf)
    (hkept : ∀ b, b ≠ t.cfg.kbsrAddr → b ≠ t.cfg.kbdrAddr → readCell b.toNat m = readCell b.toNat t.mem)
    (hs : s.cfg.kbsrAddr ∈ cells) (hd : s.cfg.kbdrAddr ∈ cells) :
    Changes regs cells pcMoves emits s { t with mem := m, env := e } where
  frame := by
    obtain ⟨hregs, hcells, hir, hcfg⟩ := h.frame
    rw [hcfg] at hkept
    refine ⟨hregs, fun b hb => ?_, hir, hcfg⟩
    have hread : storeRead b { t with mem := m, env := e } = storeRead b t :=
      hkept b (fun e => hb (e ▸ hs)) (fun e => hb (e ▸ hd))
    rw [hread, hcells b hb]
  pc := h.pc
  out := h.out
  wf hw := hwf (h.wf hw)

theorem memRead (h : Changes regs cells pcMoves emits s t) (a : Word) (hs : s.cfg.kbsrAddr ∈ cells)
    (hd : s.cfg.kbdrAddr ∈ cells) : Changes regs cells pcMoves emits s (memRead a t).2 := by
  obtain ⟨m, e, hread, hwf, hkept⟩ := memRead_snd a t
  rw [hread]
  exact h.cellsKept e hwf hkept hs hd

theorem putString (h : Changes regs cells pcMoves true s t) {chars : Word → List Byte}
    (hs : s.cfg.kbsrAddr ∈ cells) (hd : s.cfg.kbdrAddr ∈ cells) (hput : putString chars t = .next u) :
    Changes regs cells pcMoves true s u := by
  obtain ⟨m, e, bs, rfl, hwf, hkept⟩ := putString_next hput
  exact (h.cellsKept e hwf hkept hs hd).outBytes bs

theorem blockingRead (h : Changes regs cells pcMoves emits s t) {k : InAnswer → State → State}
    (hk : ∀ a e, Changes regs cells pcMoves emits s (k a { t with env := e }))
    (hread : blockingRead t k = .next u) : Changes regs cells pcMoves emits s u := by
  obtain ⟨e, hwait⟩ := inWait_snd t
  obtain ⟨e', hanswer⟩ := inRead_snd (inWait t).2
  rcases blockingRead_cases t k with ⟨-, he⟩ | ⟨-, he⟩ | ⟨-, he⟩
  · obtain rfl := Host.Outcome.next.inj (he.symm.trans hread)
    rw [hanswer, hwait]
    exact hk _ e'
  · obtain rfl := Host.Outcome.next.inj (he.symm.trans hread)
    rw [hwait]
    exact h.rest t.cc .stopped e
  · simp [he] at hread

end Changes

/-! ## What an instruction may change -/

/-- The cells an instruction may change: those it stores to and, where it reads memory, the keyboard cells. -/
def changedCells (i : Instr) (s : State) : List Word :=
  storedCells i s ++ if readsMemory i then [s.cfg.kbsrAddr, s.cfg.kbdrAddr] else []

theorem keyboard_mem_changedCells {i : Instr} (h : readsMemory i = true) (s : State) :
    s.cfg.kbsrAddr ∈ changedCells i s ∧ s.cfg.kbdrAddr ∈ changedCells i s := by
  simp [changedCells, h]

/-- R170: the link is a change that the row of every TRAP and call names. -/
theorem saveReturn_changes {regs : List RegIdx} (cells : List Word) (pcMoves emits : Bool) (s : State)
    (h : 7#3 ∈ regs) : Changes regs cells pcMoves emits s (saveReturn s) :=
  (Changes.refl s).setReg s.pc h

/-- An instruction changes no more than its rows of the spec's tables say. -/
theorem exec_changes {i : Instr} {s t : State} (h : exec i s = .next t) :
    Changes (regWrites i) (changedCells i s) (writesPc i) (emitsOutput i) s t := by
  have hkbd := fun hi => keyboard_mem_changedCells (i := i) hi s
  have hlink := fun pcMoves emits => saveReturn_changes (regs := regWrites i) (changedCells i s) pcMoves emits s
  cases i with
  | addReg | addImm | andReg | andImm | not | lea =>
    obtain rfl := Host.Outcome.next.inj h
    exact (Changes.refl s).writeDest _ (by simp [regWrites])
  | ld | ldr =>
    obtain ⟨hs, hd⟩ := hkbd rfl
    obtain rfl := Host.Outcome.next.inj h
    exact ((Changes.refl s).memRead _ hs hd).writeDest _ (by simp [regWrites])
  | ldi =>
    obtain ⟨hs, hd⟩ := hkbd rfl
    obtain rfl := Host.Outcome.next.inj h
    exact (((Changes.refl s).memRead _ hs hd).memRead _ hs hd).writeDest _ (by simp [regWrites])
  | st | str =>
    obtain rfl := Host.Outcome.next.inj h
    exact (Changes.refl s).memWrite _ (by simp [changedCells, storedCells])
  | sti =>
    obtain ⟨hs, hd⟩ := hkbd rfl
    obtain rfl := Host.Outcome.next.inj h
    exact ((Changes.refl s).memRead _ hs hd).memWrite _ (by simp [changedCells, storedCells])
  | br nzp off =>
    obtain rfl := Host.Outcome.next.inj ((exec_br nzp off s).symm.trans h)
    exact (Changes.refl s).setPc _
  | jmp =>
    obtain rfl := Host.Outcome.next.inj h
    exact (Changes.refl s).setPc _
  | jsr | jsrr =>
    obtain rfl := Host.Outcome.next.inj h
    exact (hlink true false (by simp [regWrites])).setPc _
  | rsv8 | rsv13 =>
    obtain rfl := Host.Outcome.next.inj h
    exact (Changes.refl s).rest s.cc _ s.env
  | trapGetc =>
    have hentry := hlink false false (by simp [regWrites])
    exact hentry.blockingRead (fun a e => (hentry.rest s.cc s.run e).writeDest _ (by simp [regWrites])) h
  | trapIn =>
    simp only [exec, execTrapIn] at h
    have hprompt := (hlink false true (by simp [regWrites])).outBytes s.cfg.inPrompt
    exact hprompt.blockingRead
      (fun a e => ((hprompt.rest s.cc s.run e).outBytes _).writeDest _ (by simp [regWrites])) h
  | trapOut =>
    obtain rfl := Host.Outcome.next.inj h
    exact (hlink false true (by simp [regWrites])).outBytes _
  | trapHalt =>
    obtain rfl := Host.Outcome.next.inj h
    exact ((hlink false true (by simp [regWrites])).outBytes _).rest s.cc .halted s.env
  | trapPuts | trapPutsp =>
    obtain ⟨hs, hd⟩ := hkbd rfl
    exact (hlink false true (by simp [regWrites])).putString hs hd h
  | trapOther v =>
    have hentry := hlink false false (by simp [regWrites])
    cases hp : s.cfg.unknownTrap with
    | abort =>
      obtain rfl := Host.Outcome.next.inj ((exec_trapOther_abort v hp).symm.trans h)
      exact hentry.rest s.cc _ s.env
    | noOp =>
      obtain rfl := Host.Outcome.next.inj ((exec_trapOther_noOp v hp).symm.trans h)
      exact hentry

/-- Settles O49: R22's row lists every register that changes. -/
theorem onlyTheTablesRegistersAreWritten : Obligations.OnlyTheTablesRegistersAreWritten := by
  intro i s t h
  obtain ⟨hregs, -, -, -⟩ := (exec_changes h).frame
  exact hregs

/-- Settles O52: of the changes of an instruction that writes no `pc`, none is of `pc`. -/
theorem onlyControlTransfersWritePc : Obligations.OnlyControlTransfersWritePc :=
  fun _ _ _ hpc h => (exec_changes h).pc hpc

/-- Settles O53: a cell that changes is stored to, or is a keyboard cell under a read. -/
theorem onlyStoresAndPollsChangeMemory : Obligations.OnlyStoresAndPollsChangeMemory := by
  intro i s t a h hstored hread
  obtain ⟨-, hcells, -, -⟩ := (exec_changes h).frame
  refine hcells a fun hmem => ?_
  rcases List.mem_append.mp hmem with hmem | hmem
  · exact hstored hmem
  · split at hmem
    next hreads =>
      obtain ⟨hs, hd⟩ := hread hreads
      simp [hs, hd] at hmem
    next => simp at hmem

/-! ## What a step adds: the sample and the fetch -/

/-- The sample of the stop request and the fetch leave the parameters, the output and the canonical form. -/
theorem fetch_sampled_keeps (s : State) :
    (fetch (sampleStop s).2).cfg = s.cfg ∧ (fetch (sampleStop s).2).out = s.out ∧
      (s.mem.wf → (fetch (sampleStop s).2).mem.wf) := by
  obtain ⟨e, hsample⟩ := sampleStop_snd s
  obtain ⟨m, e', hread, hwf, -⟩ := memRead_snd (sampleStop s).2.pc (sampleStop s).2
  rw [fetch_eq, hread, hsample]
  rw [hsample] at hwf
  exact ⟨rfl, rfl, hwf⟩

/-- Every step keeps the parameters and the canonical form, and only appends output. -/
theorem step_keeps {s t : State} (h : step s = .next t) :
    t.cfg = s.cfg ∧ (∃ bs, t.out = s.out ++ bs) ∧ (s.mem.wf → t.mem.wf) := by
  obtain ⟨e, hsample⟩ := sampleStop_snd s
  rcases step_cases h with ⟨-, rfl, -⟩ | ⟨-, -, rfl⟩ | ⟨-, -, -, hexec⟩
  · exact ⟨rfl, ⟨[], (List.append_nil _).symm⟩, id⟩
  · rw [hsample]
    exact ⟨rfl, ⟨[], (List.append_nil _).symm⟩, id⟩
  · obtain ⟨hcfg, hout, hwf⟩ := fetch_sampled_keeps s
    obtain ⟨⟨-, -, -, hcfg'⟩, -, ⟨bs, hout', -⟩, hwf'⟩ := exec_changes hexec
    exact ⟨hcfg'.trans hcfg, ⟨bs, hout'.trans (by rw [hout])⟩, hwf' ∘ hwf⟩

/-- Settles O54: `out` only grows, by the instructions that emit, and a step adds none of its own. -/
theorem onlyTrapRoutinesAppendOutput : Obligations.OnlyTrapRoutinesAppendOutput := by
  refine ⟨fun i s t h => (exec_changes h).out, fun s t h => ?_⟩
  obtain ⟨-, hout, -⟩ := step_keeps h
  exact hout

/-- Settles O57: the parameters and `ir` are in the frame of every instruction, the parameters in a step's. -/
theorem parametersNeverChange : Obligations.ParametersNeverChange := by
  refine ⟨fun i s t h => ?_, fun s t h => ?_⟩
  · obtain ⟨-, -, hir, hcfg⟩ := (exec_changes h).frame
    exact ⟨hcfg, hir⟩
  · obtain ⟨hcfg, -, -⟩ := step_keeps h
    exact hcfg

/-! ## The invariant (R8, R35, D18) -/

/-- Settles O2: memory is empty at reset, and the defaults are legal. -/
theorem resetMeetsTheInvariant : Obligations.ResetMeetsTheInvariant :=
  ⟨reset_wf, by decide, nofun⟩

/-- A step that leaves an ABORTED state is a fault, so no next state is one. -/
theorem step_run_ne_aborted {s t : State} (h : step s = .next t) (r : FaultRecord) : t.run ≠ .aborted r := by
  rcases step_cases h with ⟨-, -, hrun⟩ | ⟨-, -, rfl⟩ | ⟨-, -, hrun, -⟩
  · exact hrun r
  · nofun
  · exact hrun r

/-- Settles O3: a step keeps the canonical form and the parameters, and answers no ABORTED state. -/
theorem everyStepKeepsTheInvariant : Obligations.EveryStepKeepsTheInvariant := by
  intro s t hinv h
  obtain ⟨hmem, hlegal, -⟩ := hinv
  obtain ⟨hcfg, -, hwf⟩ := step_keeps h
  exact ⟨hwf hmem, hcfg ▸ hlegal, step_run_ne_aborted h⟩

/-! ## The run state (R31, R202, R208) -/

@[simp] theorem memRead_snd_run (a : Word) (s : State) : (memRead a s).2.run = s.run := by
  obtain ⟨m, e, hread, -, -⟩ := memRead_snd a s
  rw [hread]

/-- A string routine leaves the run state. -/
theorem putString_run {chars : Word → List Byte} {s t : State} (h : putString chars s = .next t) : t.run = s.run := by
  obtain ⟨m, e, bs, rfl, -, -⟩ := putString_next h
  rfl

/-- A blocking read leaves the run state, or ends the run where the request is seen in the wait. -/
theorem blockingRead_run {s t u : State} {k : InAnswer → State → State} (h : blockingRead t k = .next u)
    (hk : ∀ a v, (k a v).run = v.run) (henv : t.env = s.env) :
    u.run = t.run ∨ ((inWait s).1 = .stopRequested ∧ u.run = .stopped) := by
  obtain ⟨e, hwait⟩ := inWait_snd t
  obtain ⟨e', hanswer⟩ := inRead_snd (inWait t).2
  rcases blockingRead_cases t k with ⟨-, he⟩ | ⟨hw, he⟩ | ⟨-, he⟩
  · obtain rfl := Host.Outcome.next.inj (he.symm.trans h)
    exact .inl (by rw [hk, hanswer, hwait])
  · obtain rfl := Host.Outcome.next.inj (he.symm.trans h)
    exact .inr ⟨(inWait_fst_congr henv).symm.trans hw, rfl⟩
  · simp [he] at h

/-- Settles O55: HALT, a stopped wait and the two faults write the run state, and no other operation does. -/
theorem onlyHaltStopOrAFaultEndsTheRun : Obligations.OnlyHaltStopOrAFaultEndsTheRun := by
  intro i s t h
  rw [wrap_instrAddr]
  cases i with
  | addReg | addImm | andReg | andImm | not | lea | jmp | jsr | jsrr | st | str | trapOut =>
    obtain rfl := Host.Outcome.next.inj h
    exact .inl rfl
  | br nzp off =>
    obtain rfl := Host.Outcome.next.inj ((exec_br nzp off s).symm.trans h)
    exact .inl rfl
  | ld | ldi | ldr | sti =>
    obtain rfl := Host.Outcome.next.inj h
    exact .inl (by simp [loadInto])
  | rsv8 | rsv13 =>
    obtain rfl := Host.Outcome.next.inj h
    exact .inr (.inr (.inr (.inl ⟨by simp, _, rfl⟩)))
  | trapGetc | trapIn =>
    simp only [exec, execTrapGetc, execTrapIn] at h
    rcases blockingRead_run (s := s) h (fun _ _ => rfl) rfl with hrun | ⟨hw, hrun⟩
    · exact .inl hrun
    · exact .inr (.inr (.inl ⟨rfl, hw, hrun⟩))
  | trapPuts | trapPutsp =>
    have hrun := putString_run (s := saveReturn s) h
    exact .inl hrun
  | trapHalt =>
    obtain rfl := Host.Outcome.next.inj h
    exact .inr (.inl ⟨rfl, rfl⟩)
  | trapOther v =>
    cases hp : s.cfg.unknownTrap with
    | abort =>
      obtain rfl := Host.Outcome.next.inj ((exec_trapOther_abort v hp).symm.trans h)
      exact .inr (.inr (.inr (.inr ⟨v, rfl, rfl, rfl⟩)))
    | noOp =>
      obtain rfl := Host.Outcome.next.inj ((exec_trapOther_noOp v hp).symm.trans h)
      exact .inl rfl

end Sys2Proof.Machine
end

section
/-! PROOFS. The flag that `setcc` picks (10_state.md rules R26 and R27) -/

namespace Sys2Proof.Machine

theorem ccOf_zero : ccOf 0x0000#16 = .z := rfl

theorem ccOf_of_nonzero {v : Word} (h : v ≠ 0x0000#16) : ccOf v = if v.getLsbD 15 then .n else .p := by
  rw [ccOf, if_neg h, BitVec.msb_eq_getLsbD_last]

/-- Settles O10: the flag by the value's sign bit, and `setcc` writes `cc` alone. -/
theorem setccPicksTheFlagOfTheSignedValue : Obligations.SetccPicksTheFlagOfTheSignedValue := by
  intro v s
  refine ⟨ccOf_matches v, ?_, fun hv htop => ?_, fun hv htop => ?_, rfl,
    ⟨fun _ _ => rfl, fun _ _ => rfl, rfl, rfl⟩, rfl, rfl, rfl⟩
  · rintro rfl
    rw [setcc_cc, ccOf_zero, ccBits]
  · rw [setcc_cc, ccOf_of_nonzero hv, if_pos htop, ccBits]
  · rw [setcc_cc, ccOf_of_nonzero hv, htop, if_neg Bool.false_ne_true, ccBits]

end Sys2Proof.Machine
end

section
/-! PROOFS. Canonical memories, and the fetch that follows a store (20_memory.md rules R50 and R69) -/

namespace Sys2Proof.Machine

/-! ## Canonical memories (R50; log entry 8) -/

theorem readCell_cons_same (c : Nat × Word) (m : Memory) : readCell c.1 (c :: m) = c.2 := if_pos rfl

theorem readCell_cons_other {c : Nat × Word} {a : Nat} (h : c.1 ≠ a) (m : Memory) :
    readCell a (c :: m) = readCell a m := if_neg h

/-- The first cell of a canonical memory stands below the others, and its tail is canonical. -/
theorem wf_cons {c : Nat × Word} {m : Memory} (h : Memory.wf (c :: m)) :
    c.1 < memWords ∧ c.2 ≠ 0x0000#16 ∧ (∀ d ∈ m, c.1 < d.1) ∧ Memory.wf m := by
  obtain ⟨hsorted, hcells⟩ := h
  obtain ⟨hfirst, htail⟩ := List.pairwise_cons.mp hsorted
  obtain ⟨haddr, hword⟩ := hcells c (by simp)
  exact ⟨haddr, hword, hfirst, htail, fun d hd => hcells d (by simp [hd])⟩

/-- Of canonical memories that read alike, the first address of one is not below every address of the other. -/
theorem first_not_lt {c : Nat × Word} {m n : Memory} (hm : Memory.wf (c :: m))
    (hread : ∀ a < memWords, readCell a (c :: m) = readCell a n) : ¬ ∀ d ∈ n, c.1 < d.1 := by
  intro hlt
  obtain ⟨haddr, hword, -, -⟩ := wf_cons hm
  have hzero := hread c.1 haddr
  rw [readCell_cons_same, readCell_of_lt hlt] at hzero
  exact hword hzero

/-- Settles O46: the first cells are the same, since the lower of two would read as zero in the other memory, and the
tails read alike. -/
theorem canonicalMemoriesThatReadAlikeAreEqual : Obligations.CanonicalMemoriesThatReadAlikeAreEqual := by
  intro m
  induction m with
  | nil =>
    intro n _ hn hread
    cases n with
    | nil => rfl
    | cons d n => exact absurd nofun (first_not_lt hn fun a ha => (hread a ha).symm)
  | cons c m ih =>
    intro n hm hn hread
    cases n with
    | nil => exact absurd nofun (first_not_lt hm hread)
    | cons d n =>
      obtain ⟨haddr, -, hbelow, hm'⟩ := wf_cons hm
      obtain ⟨-, -, hbelow', hn'⟩ := wf_cons hn
      have hnotlt : ¬ c.1 < d.1 := fun hlt =>
        first_not_lt hm hread (List.forall_mem_cons.mpr ⟨hlt, fun e he => hlt.trans (hbelow' e he)⟩)
      have hnotgt : ¬ d.1 < c.1 := fun hlt =>
        first_not_lt hn (fun a ha => (hread a ha).symm)
          (List.forall_mem_cons.mpr ⟨hlt, fun e he => hlt.trans (hbelow e he)⟩)
      have hfirst : c.1 = d.1 := by omega
      have hword : c.2 = d.2 := by
        have h := hread c.1 haddr
        rwa [readCell_cons_same, hfirst, readCell_cons_same] at h
      have htails : ∀ a < memWords, readCell a m = readCell a n := by
        intro a ha
        by_cases hac : c.1 = a
        · subst hac
          rw [readCell_of_lt hbelow, readCell_of_lt (hfirst ▸ hbelow')]
        · have h := hread a ha
          rwa [readCell_cons_other hac, readCell_cons_other (hfirst ▸ hac)] at h
      rw [Prod.ext hfirst hword, ih n hm' hn' htails]

/-! ## The fetch after a store (R69) -/

@[simp] theorem memRead_snd_cfg (a : Word) (s : State) : (memRead a s).2.cfg = s.cfg := by
  obtain ⟨m, e, hread, -, -⟩ := memRead_snd a s
  rw [hread]

theorem fetch_ir_of_memWrite_pc {a : Word} {s : State} (v : Word) (hs : s.pc ≠ s.cfg.kbsrAddr) (ha : a = s.pc) :
    (fetch (memWrite a v s)).ir = v := by
  rw [fetch_plain (s := memWrite a v s) hs, memWrite_pc, ← ha, storeRead_memWrite_same]

/-- Settles O43: away from the status cell the fetch is a plain read, of the cell just written. -/
theorem nextFetchSeesTheStoredWord : Obligations.NextFetchSeesTheStoredWord := by
  refine ⟨fun sr off s hs ha => ⟨_, exec_st sr off s, fetch_ir_of_memWrite_pc _ hs ha⟩,
    fun sr off s hs ha => ⟨_, exec_sti sr off s, fetch_ir_of_memWrite_pc _ ?_ ?_⟩,
    fun sr base off s hs ha => ⟨_, exec_str sr base off s, fetch_ir_of_memWrite_pc _ hs ha⟩⟩
  · rwa [memRead_snd_pc, memRead_snd_cfg]
  · rw [ha, memRead_snd_pc]

end Sys2Proof.Machine
end

section
/-! PROOFS. The boot (70_reset_and_hazards.md rules R222, R225 and R226) -/

namespace Sys2Proof.Machine

theorem loadImage_of_length_lt_two {bytes : List Byte} (s : State) (h : bytes.length < 2) :
    loadImage bytes s = none := by
  rw [loadImage, imageWords_of_length_le_one (Nat.le_of_lt_succ h)]

/-- An image of a whole word or more is loaded, and changes memory alone. -/
theorem loadImage_of_two_le_length {bytes : List Byte} (s : State) (h : 2 ≤ bytes.length) :
    ∃ m, loadImage bytes s = some { s with mem := m } := by
  match bytes, h with
  | hi :: lo :: rest, _ =>
    obtain ⟨m, hm⟩ := loadWords_changes_mem_alone (hi ++ lo).toNat (imageWords rest) s
    exact ⟨m, congrArg some hm⟩

/-- Images long enough are loaded one on another, changing memory alone, and then those that follow. -/
theorem loadImages_of_good {good : List (List Byte)} (s : State) (h : ∀ b ∈ good, 2 ≤ b.length) :
    ∃ m, good.foldlM (fun s b => loadImage b s) s = some { s with mem := m } ∧
      ∀ k rest, loadImages k (good.map some ++ rest) s = loadImages (k + good.length) rest { s with mem := m } := by
  induction good generalizing s with
  | nil => exact ⟨s.mem, rfl, fun _ _ => rfl⟩
  | cons b good ih =>
    obtain ⟨hb, hgood⟩ := List.forall_mem_cons.mp h
    obtain ⟨m, hm⟩ := loadImage_of_two_le_length s hb
    obtain ⟨m', hfold, hload⟩ := ih { s with mem := m } hgood
    refine ⟨m', ?_, fun k rest => ?_⟩
    · rw [List.foldlM_cons, hm]
      exact hfold
    · rw [List.map_cons, List.cons_append, loadImages, hm, List.length_cons, Nat.add_comm good.length, ← Nat.add_assoc]
      exact hload (k + 1) rest

theorem boot_of_ne_nil {images : List (Option (List Byte))} (cfg : Config) (env : Env) (h : images ≠ []) :
    boot cfg env images = loadImages 0 images { State.reset with cfg := cfg, env := env } := by
  cases images with
  | nil => exact absurd rfl h
  | cons _ _ => rfl

/-- Settles O48: the good images in order, and then the end, a missing file or one too short. -/
theorem bootLoadsTheImagesInOrder : Obligations.BootLoadsTheImagesInOrder := by
  refine ⟨fun _ _ => rfl, fun cfg env good rest h => ?_, fun cfg env good bad rest h hbad => ?_,
    fun cfg env good hne h => ?_⟩
  · obtain ⟨m, -, hload⟩ := loadImages_of_good { State.reset with cfg := cfg, env := env } h
    rw [boot_of_ne_nil cfg env (by simp), hload, Nat.zero_add, loadImages]
  · obtain ⟨m, -, hload⟩ := loadImages_of_good { State.reset with cfg := cfg, env := env } h
    rw [boot_of_ne_nil cfg env (by simp), hload, Nat.zero_add, loadImages, loadImage_of_length_lt_two _ hbad]
  · obtain ⟨m, hfold, hload⟩ := loadImages_of_good { State.reset with cfg := cfg, env := env } h
    refine ⟨_, ?_, hfold, rfl, rfl⟩
    rw [boot_of_ne_nil cfg env (by simpa using hne), ← List.append_nil (good.map some), hload, loadImages]

end Sys2Proof.Machine
end

section
/-! PROOFS. The step and the ends of a run (40_fetch_decode.md rule R110, 60_exceptions.md rules R207 to R209) -/

namespace Sys2Proof.Machine

/-! ## The step (R110, R207, R208) -/

theorem step_running {s : State} (h : s.run = .running) :
    step s = if (sampleStop s).1 then .next (stopRun (sampleStop s).2)
      else finishStep (exec (decode (fetch (sampleStop s).2).ir) (fetch (sampleStop s).2)) := by
  simp only [step, h]

theorem sampleStop_answer {s q : State} {b : Bool} (h : sampleStop s = (b, q)) : ∃ e, q = { s with env := e } := by
  simpa [h] using sampleStop_snd s

theorem finishStep_of_not_aborted {t : State} (h : ∀ r, t.run ≠ .aborted r) : finishStep (.next t) = .next t := by
  cases hr : t.run with
  | aborted r => exact absurd hr (h r)
  | running | halted | stopped => simp only [finishStep, hr]

theorem finishStep_of_aborted {t : State} {r : FaultRecord} (h : t.run = .aborted r) :
    finishStep (.next t) = .fault (.aborted r t.out) := by
  simp only [finishStep, h]

/-- Settles O38: the fetch is the read at `pc`, with `ir` and the incremented `pc`; and the three ends of a step. -/
theorem stepRunsTheDecodedInstruction : Obligations.StepRunsTheDecodedInstruction := by
  refine ⟨fun s q r hrun hq hr => ?_, fun t => finishStep_of_not_aborted, fun t r => finishStep_of_aborted,
    fun f => rfl⟩
  obtain ⟨e, rfl⟩ := sampleStop_answer hq
  have hpc : wrap (s.pc.toNat + 1) = s.pc + 1#16 := wrap_add s.pc 1
  rw [step_running hrun, hq, if_neg Bool.false_ne_true, fetch_eq, hr, hpc]

/-- Settles O39: the request is taken in the sampled state, where only the environment has moved on. -/
theorem stopRequestIsTakenBeforeTheFetch : Obligations.StopRequestIsTakenBeforeTheFetch := by
  intro s q hrun hq
  obtain ⟨e, rfl⟩ := sampleStop_answer hq
  refine ⟨stopRun { s with env := e }, ?_, rfl, rfl, rfl, rfl, rfl, frame_env [] [] s e⟩
  rw [step_running hrun, hq, if_pos rfl]

/-! ## Terminal states (R110, R209) -/

theorem step_terminal {s : State} (h : s.run ≠ .running) : step s = finishStep (.next s) := by
  unfold step
  cases hr : s.run with
  | running => exact absurd hr h
  | halted | aborted | stopped => rfl

/-- HALTED and STOPPED take no step and change no state. -/
theorem step_of_terminal {s : State} (hrun : s.run ≠ .running) (h : ∀ r, s.run ≠ .aborted r) : step s = .next s :=
  (step_terminal hrun).trans (finishStep_of_not_aborted h)

theorem exitStatus_eq_none_iff (s : State) : exitStatus s = none ↔ s.run = .running := by
  cases h : s.run <;> simp [exitStatus, h]

/-- D17: with legal parameters the status tells the run state. -/
theorem exitStatus_eq_zero_iff {s : State} (h : legalConfig s.cfg) : exitStatus s = some 0 ↔ s.run = .halted := by
  obtain ⟨-, -, -, habort, hstop, -⟩ := h
  cases hr : s.run <;> simp [exitStatus, hr, habort, hstop]

theorem exitStatus_eq_exitStop_iff {s : State} (h : legalConfig s.cfg) :
    exitStatus s = some s.cfg.exitStop ↔ s.run = .stopped := by
  obtain ⟨-, -, -, -, hstop, hne⟩ := h
  cases hr : s.run <;> simp [exitStatus, hr, hstop.symm, hne]

/-- Settles O40: outside RUNNING the step ends in the state it stands in, and each status is reported in one kind of run
state alone. -/
theorem terminalStatesTakeNoStepAndReportTheirStatus : Obligations.TerminalStatesTakeNoStepAndReportTheirStatus := by
  refine ⟨fun s h => ⟨?_, ?_⟩, fun s r h => ⟨?_, ?_⟩, fun s h => ⟨?_, ?_⟩, fun s t hlegal hcfg hstatus => ?_⟩
  · exact step_of_terminal (by simp [h]) (by simp [h])
  · simp only [exitStatus, observe, h, and_self]
  · rw [step_terminal (by simp [h]), finishStep_of_aborted h]
  · simp only [exitStatus, observe, h, and_self]
  · exact step_of_terminal (by simp [h]) (by simp [h])
  · simp only [exitStatus, observe, h, and_self]
  · have hlegal' : legalConfig t.cfg := hcfg ▸ hlegal
    rw [← exitStatus_eq_none_iff, ← exitStatus_eq_none_iff, ← exitStatus_eq_zero_iff hlegal,
      ← exitStatus_eq_zero_iff hlegal', ← exitStatus_eq_exitStop_iff hlegal, ← exitStatus_eq_exitStop_iff hlegal',
      hstatus, hcfg]
    exact ⟨Iff.rfl, Iff.rfl, Iff.rfl⟩

end Sys2Proof.Machine
end

section
/-! PROOFS. Completion and hanging of the routines that wait or loop (44_trap.md rule R178, 60_exceptions.md rule R208,
93_implementation_defined.md U14 and U15) -/

namespace Sys2Proof.Machine

/-! ## A blocked read (R208, U15) -/

theorem blockingRead_of_stop {s t : State} (k : InAnswer → State → State) (henv : t.env = s.env)
    (hw : (inWait s).1 = .stopRequested) :
    blockingRead t k = .next (stopRun { t with env := (inWait s).2.env }) := by
  have hwait := inWait_of_env_eq henv
  rcases blockingRead_cases t k with ⟨ha, -⟩ | ⟨-, he⟩ | ⟨hn, -⟩
  · simp [hwait, hw] at ha
  · rw [he, hwait]
  · simp [hwait, hw] at hn

theorem blockingRead_of_never {s t : State} (k : InAnswer → State → State) (henv : t.env = s.env)
    (hw : (inWait s).1 = .neverAnswered) : blockingRead t k = .fault .blockedOnInput := by
  have hwait := inWait_of_env_eq henv
  rcases blockingRead_cases t k with ⟨ha, -⟩ | ⟨hs, -⟩ | ⟨-, he⟩
  · simp [hwait, hw] at ha
  · simp [hwait, hw] at hs
  · exact he

/-! GETC and IN are a blocking read, after the link and, for IN, the prompt. -/

theorem exec_trapGetc_blocks (s : State) : ∃ k, exec .trapGetc s = blockingRead (saveReturn s) k :=
  ⟨_, by rw [exec, execTrapGetc]⟩

theorem exec_trapIn_blocks (s : State) :
    ∃ k, exec .trapIn s = blockingRead (outBytes s.cfg.inPrompt (saveReturn s)) k :=
  ⟨_, by rw [exec, execTrapIn]⟩

theorem prompted_env (s : State) : (outBytes s.cfg.inPrompt (saveReturn s)).env = s.env := rfl

/-- Settles O36: the link and the prompt come before the wait, and R0 and `cc` after it. -/
theorem blockedReadEndsOnAStopRequestOrNever : Obligations.BlockedReadEndsOnAStopRequestOrNever := by
  refine ⟨fun s hw => ?_, fun s hw => ?_, fun s hw => ⟨?_, ?_⟩⟩
  · obtain ⟨k, hk⟩ := exec_trapGetc_blocks s
    exact ⟨_, hk.trans (blockingRead_of_stop k (saveReturn_env s) hw), rfl, rfl, reg_saveReturn_link s, rfl, rfl, rfl,
      saveReturn_env_frame s (inWait s).2.env⟩
  · obtain ⟨k, hk⟩ := exec_trapIn_blocks s
    exact ⟨_, hk.trans (blockingRead_of_stop k (prompted_env s) hw), rfl, rfl, reg_saveReturn_link s, rfl, rfl, rfl,
      saveReturn_env_frame s (inWait s).2.env⟩
  · obtain ⟨k, hk⟩ := exec_trapGetc_blocks s
    exact hk.trans (blockingRead_of_never k (saveReturn_env s) hw)
  · obtain ⟨k, hk⟩ := exec_trapIn_blocks s
    exact hk.trans (blockingRead_of_never k (prompted_env s) hw)

/-! ## The string routines complete (R178, U14) -/

/-- A string routine ends, or nothing ends it; the link leaves all that this depends on. -/
theorem putString_runs_or_hangs (chars : Word → List Byte) (s : State) :
    (∃ t, putString chars (saveReturn s) = .next t) ∨
      (stringHangs s ∧ putString chars (saveReturn s) = .fault .stringNeverEnds) := by
  rcases putString_cases chars (saveReturn s) with ⟨t, -, he⟩ | ⟨-, -, t, -, he⟩ | ⟨he, -⟩
  · exact .inl ⟨t, he⟩
  · exact .inl ⟨dropPolls t, he⟩
  · exact .inr ⟨stringHangs_of_putString (s := saveReturn s) he, he⟩

theorem putString_stringFrame {chars : Word → List Byte} {s t : State}
    (h : putString chars (saveReturn s) = .next t) : stringFrame s t := by
  obtain ⟨m, e, bs, rfl, -, hcells⟩ := putString_next h
  obtain ⟨⟨hregs, -, hir, hcfg⟩, -⟩ := saveReturn_quietFrame s
  refine ⟨⟨hregs, fun a ha => ?_, hir, hcfg⟩, reg_saveReturn_link s, rfl, rfl, rfl, bs, rfl⟩
  simp only [List.mem_cons, List.not_mem_nil, or_false, not_or] at ha
  exact hcells a ha.1 ha.2

/-- Both routines complete where something ends the string. -/
theorem stringRoutines_complete {s : State} (h : ¬ stringHangs s) :
    (∃ t, exec .trapPuts s = .next t ∧ stringFrame s t) ∧ ∃ t, exec .trapPutsp s = .next t ∧ stringFrame s t := by
  have hends : ∀ chars, ∃ t, putString chars (saveReturn s) = .next t ∧ stringFrame s t := by
    intro chars
    obtain ⟨t, ht⟩ := (putString_runs_or_hangs chars s).resolve_right fun hr => h hr.1
    exact ⟨t, ht, putString_stringFrame ht⟩
  exact ⟨hends putsChars, hends putspChars⟩

/-- Where a word is zero, the string up to the first one has a length. -/
theorem exists_stringOfLength {s : State} {a : Word} (hraw : s.cfg.putsReadsViaDevice = false)
    (hz : storeRead a s = 0x0000#16) : ∃ k, stringOfLength s k := by
  have hreach : stringWord s (a - s.reg 0#3).toNat = 0x0000#16 := by rw [stringWord, add_distance, hz]
  have hex : ∃ k, stringWord s k = 0x0000#16 := ⟨_, hreach⟩
  refine ⟨Nat.find hex, ?_, fun j hj => Nat.find_min hex hj, Nat.find_spec hex, .inl hraw⟩
  exact (Nat.find_min' hex hreach).trans_lt (a - s.reg 0#3).isLt

/-- Over a string with a length the routine emits, and changes nothing else beside the link. -/
theorem putString_trapFrame {s : State} {k : Nat} (chars : Word → List Byte) (h : stringOfLength s k) :
    ∃ t, putString chars (saveReturn s) = .next t ∧ t.run = s.run ∧ trapFrame s t :=
  ⟨_, putString_of_length chars h, rfl, trapFrame_outBytes (saveReturn_trapFrame s) _⟩

/-- Settles O37: with raw reads the string has a length; otherwise each clause names something that ends it. -/
theorem stringRoutinesCompleteWhileAWordIsZero : Obligations.StringRoutinesCompleteWhileAWordIsZero := by
  refine ⟨fun s a hraw hz => ?_, fun s a hs hd hz => ?_, fun s hv hp => ?_, fun s c hv hc hz => ?_⟩
  · obtain ⟨k, hk⟩ := exists_stringOfLength hraw hz
    exact ⟨putString_trapFrame putsChars hk, putString_trapFrame putspChars hk⟩
  · refine stringRoutines_complete fun hhang => ?_
    obtain ⟨hwords, -⟩ := hhang
    exact hwords a (.inr ⟨hs, hd⟩) hz
  · refine stringRoutines_complete fun hhang => ?_
    obtain ⟨-, hpolling⟩ := hhang
    obtain ⟨hpolls, -, -⟩ := hpolling hv
    exact Bool.false_ne_true (hpolls false hp)
  · refine stringRoutines_complete fun hhang => ?_
    obtain ⟨-, hpolling⟩ := hhang
    obtain ⟨-, -, hreads⟩ := hpolling hv
    exact hreads c hc hz

/-! ## Every instruction runs or hangs (R88, R118) -/

theorem blockingRead_runs_or_blocks {s t : State} (k : InAnswer → State → State) (henv : t.env = s.env) :
    (∃ u, blockingRead t k = .next u) ∨
      ((inWait s).1 = .neverAnswered ∧ blockingRead t k = .fault .blockedOnInput) := by
  rcases blockingRead_cases t k with ⟨-, he⟩ | ⟨-, he⟩ | ⟨hn, he⟩
  · exact .inl ⟨_, he⟩
  · exact .inl ⟨_, he⟩
  · exact .inr ⟨(inWait_fst_congr henv).symm.trans hn, he⟩

/-- Settles O56: only the blocking reads and the string loops can fail to answer, and both say why. -/
theorem everyInstructionRunsOrHangs : Obligations.EveryInstructionRunsOrHangs := by
  intro i s
  cases i with
  | trapGetc =>
    obtain ⟨k, hk⟩ := exec_trapGetc_blocks s
    rw [hk]
    exact (blockingRead_runs_or_blocks k (saveReturn_env s)).imp_right fun h => .inl ⟨rfl, h⟩
  | trapIn =>
    obtain ⟨k, hk⟩ := exec_trapIn_blocks s
    rw [hk]
    exact (blockingRead_runs_or_blocks k (prompted_env s)).imp_right fun h => .inl ⟨rfl, h⟩
  | trapPuts => exact (putString_runs_or_hangs putsChars s).imp_right fun h => .inr ⟨.inl rfl, h⟩
  | trapPutsp => exact (putString_runs_or_hangs putspChars s).imp_right fun h => .inr ⟨.inr rfl, h⟩
  | trapOther v =>
    cases hp : s.cfg.unknownTrap with
    | abort => exact .inl ⟨_, exec_trapOther_abort v hp⟩
    | noOp => exact .inl ⟨_, exec_trapOther_noOp v hp⟩
  | _ => exact .inl ⟨_, rfl⟩

end Sys2Proof.Machine
end

section
/-! PROOFS. What no instruction observes: `ir`, and the environment where nothing is read (10_state.md rules R32 and
R33) -/

namespace Sys2Proof.Machine

/-! ## The environment is not observed elsewhere (R33, R63) -/

/-- Settles O59: no other instruction asks the environment anything, so each carries any environment through. -/
theorem otherInstructionsDoNotObserveTheEnvironment : Obligations.OtherInstructionsDoNotObserveTheEnvironment := by
  intro i s t e hmem hin h
  cases i with
  | ld | ldi | ldr | sti | trapPuts | trapPutsp => cases hmem
  | trapGetc | trapIn => cases hin
  | br nzp off =>
    rw [exec_br] at h ⊢
    obtain rfl := Host.Outcome.next.inj h
    rfl
  | trapOther v =>
    cases hp : s.cfg.unknownTrap with
    | abort =>
      obtain rfl := Host.Outcome.next.inj ((exec_trapOther_abort v hp).symm.trans h)
      exact exec_trapOther_abort (s := { s with env := e }) v hp
    | noOp =>
      obtain rfl := Host.Outcome.next.inj ((exec_trapOther_noOp v hp).symm.trans h)
      exact exec_trapOther_noOp (s := { s with env := e }) v hp
  | _ =>
    obtain rfl := Host.Outcome.next.inj h
    rfl

/-! ## `ir` is not observed (R32)

As with `cc`: every operation carries another `ir` through and answers the same values. -/

/-- The same state under another instruction register. -/
def State.withIr (v : Word) (s : State) : State := { s with ir := v }

@[simp] theorem withIr_cfg (v : Word) (s : State) : (s.withIr v).cfg = s.cfg := rfl
@[simp] theorem reg_withIr (r : RegIdx) (v : Word) (s : State) : (s.withIr v).reg r = s.reg r := rfl
@[simp] theorem pcRel9_withIr (off : BitVec 9) (v : Word) (s : State) : pcRel9 off (s.withIr v) = pcRel9 off s := rfl
@[simp] theorem baseOff6_withIr (base : RegIdx) (off : BitVec 6) (v : Word) (s : State) :
    baseOff6 base off (s.withIr v) = baseOff6 base off s := rfl
@[simp] theorem storeRead_withIr (a v : Word) (s : State) : storeRead a (s.withIr v) = storeRead a s := rfl
@[simp] theorem memWrite_withIr (a w v : Word) (s : State) :
    memWrite a w (s.withIr v) = (memWrite a w s).withIr v := rfl
@[simp] theorem stopRun_withIr (v : Word) (s : State) : stopRun (s.withIr v) = (stopRun s).withIr v := rfl
@[simp] theorem loadInto_withIr (dr : RegIdx) (w v : Word) (s : State) :
    loadInto dr (w, s.withIr v) = (loadInto dr (w, s)).withIr v := rfl

@[simp] theorem inPoll_withIr (v : Word) (s : State) : inPoll (s.withIr v) = ((inPoll s).1, (inPoll s).2.withIr v) := by
  unfold inPoll State.withIr
  cases s.env.polls <;> rfl

@[simp] theorem inRead_withIr (v : Word) (s : State) : inRead (s.withIr v) = ((inRead s).1, (inRead s).2.withIr v) := by
  unfold inRead State.withIr
  cases s.env.reads <;> rfl

@[simp] theorem inWait_withIr (v : Word) (s : State) : inWait (s.withIr v) = ((inWait s).1, (inWait s).2.withIr v) := by
  unfold inWait State.withIr
  cases s.env.waits <;> rfl

@[simp] theorem memRead_withIr (a v : Word) (s : State) :
    memRead a (s.withIr v) = ((memRead a s).1, (memRead a s).2.withIr v) := by
  have hpoll : pollKeyboard (s.withIr v) = (pollKeyboard s).withIr v := by
    simp only [pollKeyboard, inPoll_withIr, inRead_withIr, memWrite_withIr, withIr_cfg]
    split <;> rfl
  simp only [memRead, hpoll, withIr_cfg, storeRead_withIr]
  split <;> rfl

theorem stringRead_withIr (a v : Word) (s : State) :
    stringRead a (s.withIr v) = ((stringRead a s).1, (stringRead a s).2.withIr v) := by
  unfold stringRead
  rw [withIr_cfg]
  split
  · exact memRead_withIr a v s
  · rfl

theorem emitString_withIr (chars : Word → List Byte) (v : Word) (fuel : Nat) (a : Word) (s : State) :
    emitString chars fuel a (s.withIr v) = (emitString chars fuel a s).map (State.withIr v) := by
  induction fuel generalizing a s with
  | zero => rfl
  | succ fuel ih =>
    have hread := stringRead_withIr a v s
    by_cases h0 : (stringRead a s).1 = 0x0000#16
    · rw [emitString_stop fuel h0, emitString_stop fuel (by rwa [hread]), hread]
      rfl
    · rw [emitString_more fuel h0, emitString_more fuel (by rwa [hread]), hread, ← ih]
      rfl

theorem scriptedString_withIr (chars : Word → List Byte) (v : Word) (s : State) :
    scriptedString chars (s.withIr v) = (scriptedString chars s).map (State.withIr v) :=
  emitString_withIr chars v _ _ s

theorem putString_withIr {chars : Word → List Byte} {s t : State} (v : Word) (h : putString chars s = .next t) :
    putString chars (s.withIr v) = .next (t.withIr v) := by
  have hscript := scriptedString_withIr chars v s
  have hsupply := scriptedString_withIr chars v (supplyPolls (furtherPolls s) s)
  rcases putString_cases chars s with ⟨u, hu, he⟩ | ⟨hv, hn, u, hu, he⟩ | ⟨he, -⟩
  · obtain rfl := Host.Outcome.next.inj (he.symm.trans h)
    rw [putString, stringEnd, hscript, hu]
    rfl
  · obtain rfl := Host.Outcome.next.inj (he.symm.trans h)
    rw [hu] at hsupply
    rw [hn] at hscript
    have hfurther : suppliedString chars (s.withIr v) = some ((dropPolls u).withIr v) := by
      rw [suppliedString, withIr_cfg, if_pos hv]
      exact congrArg (Option.map dropPolls) hsupply
    simp only [putString, stringEnd, hscript, Option.map_none, hfurther]
    rfl
  · simp [he] at h

theorem blockingRead_withIr {s t : State} {k : InAnswer → State → State} (v : Word) (h : blockingRead s k = .next t)
    (hk : ∀ a u, k a (u.withIr v) = (k a u).withIr v) : blockingRead (s.withIr v) k = .next (t.withIr v) := by
  have hrun := blockingRead_cases (s.withIr v) k
  simp only [inWait_withIr, inRead_withIr, hk] at hrun
  rcases blockingRead_cases s k with ⟨hw, he⟩ | ⟨hw, he⟩ | ⟨-, he⟩
  · obtain rfl := Host.Outcome.next.inj (he.symm.trans h)
    simpa [hw] using hrun
  · obtain rfl := Host.Outcome.next.inj (he.symm.trans h)
    simpa [hw] using hrun
  · simp [he] at h

/-- Settles O58: the fault records aside, every instruction carries `ir` through. -/
theorem instructionRegisterIsInvisible : Obligations.InstructionRegisterIsInvisible := by
  intro i s t v h8 h13 hother h
  change exec i (s.withIr v) = .next (t.withIr v)
  cases i with
  | rsv8 => exact absurd rfl h8
  | rsv13 => exact absurd rfl h13
  | trapOther k => exact absurd rfl (hother k)
  | br nzp off =>
    rw [exec_br] at h ⊢
    obtain rfl := Host.Outcome.next.inj h
    rfl
  | ld | ldi | ldr =>
    simp only [exec_ld, exec_ldi, exec_ldr] at h ⊢
    obtain rfl := Host.Outcome.next.inj h
    simp
  | sti =>
    rw [exec_sti] at h ⊢
    obtain rfl := Host.Outcome.next.inj h
    simp
  | trapGetc | trapIn =>
    simp only [exec, execTrapGetc, execTrapIn] at h ⊢
    exact blockingRead_withIr v h fun _ _ => rfl
  | trapPuts | trapPutsp => exact putString_withIr (s := saveReturn s) v h
  | _ =>
    obtain rfl := Host.Outcome.next.inj h
    rfl

end Sys2Proof.Machine
end
